-- ==== Sys2Proof/Word.lean ====
section
/-! DEFINITION. The bitpack block's two word sizes. -/

namespace Sys2Proof

/-- A 64-bit register or command word; bit 0 is the least significant (R7, R20). -/
abbrev Word := BitVec 64

/-- One byte of buffer storage (R40). -/
abbrev Byte := BitVec 8

end Sys2Proof
end

