-- ==== Sys2Proof/Syntax.lean ====
section
/-! DEFINITION. The command set: one constructor per row of spec/opcode_table.json (R66). -/

namespace Sys2Proof

/-- A command. The operand `n` of PACK and UNPACK is the 7-bit field N of the command word, bits 14:8
(R65, R67); the widths of PUT and GET are part of the mnemonic (R68). -/
inductive Instr where
  | pack (n : BitVec 7)
  | unpack (n : BitVec 7)
  | put8
  | put16
  | put32
  | put64
  | get8
  | get16
  | get32
  | get64
  | rewind
  | clrstat
deriving DecidableEq, Repr

end Sys2Proof
end

