-- ==== Sys2Proof/WellFormed.lean ====
section
/-! DEFINITION. Which commands are legal (R67, R69 item 3): the bit-width is an integer in 0..64. -/

namespace Sys2Proof

/-- NMAX, the largest bit-width (R6). -/
def maxBitWidth : Nat := 64

/-- R67: a bit-width operand is legal from 0 to 64; 65 to 127 are not. -/
def legalBitWidth (n : BitVec 7) : Bool := n.toNat ≤ maxBitWidth

/-- A command that some legal command word stands for (R69). -/
def Instr.wellFormed : Instr → Bool
  | .pack n => legalBitWidth n
  | .unpack n => legalBitWidth n
  | .put8 => true
  | .put16 => true
  | .put32 => true
  | .put64 => true
  | .get8 => true
  | .get16 => true
  | .get32 => true
  | .get64 => true
  | .rewind => true
  | .clrstat => true

end Sys2Proof
end

