-- ==== Sys2Proof/Decode.lean ====
section
/-! DEFINITION. The command word (R64 to R71): its decoder, total on every 64-bit word, and its encoder,
both written from the field table R65 and the operation codes R66. -/

namespace Sys2Proof

/-- Why a command word is illegal: the five items of R69. All illegal words behave alike (R71). -/
inductive IllegalWord where
  /-- Item 1: a nonzero bit in 63:15 or 7:4. -/
  | reservedBits
  /-- Item 2: OP is 0x0 or 0x7 to 0xF. -/
  | reservedOp
  /-- Item 3: PACK or UNPACK with N in 65..127. -/
  | bitWidthAbove64
  /-- Item 4: PUT.W or GET.W with a nonzero bit in 14:10. -/
  | scalarArg
  /-- Item 5: REWIND or CLRSTAT with a nonzero ARG. -/
  | argNotZero
deriving DecidableEq, Repr

/-- R65: bits 63:15, reserved. -/
def fieldResHi (c : Word) : BitVec 49 := c.extractLsb' 15 49

/-- R65: bits 14:8, the argument. -/
def fieldArg (c : Word) : BitVec 7 := c.extractLsb' 8 7

/-- R65: bits 7:4, reserved. -/
def fieldResLo (c : Word) : BitVec 4 := c.extractLsb' 4 4

/-- R65: bits 3:0, the operation code. -/
def fieldOp (c : Word) : BitVec 4 := c.extractLsb' 0 4

/-- R65, R68: bits 9:8, the scalar width of PUT.W and GET.W. -/
def fieldWC (c : Word) : BitVec 2 := c.extractLsb' 8 2

/-- R65: bits 14:10, which PUT.W and GET.W require to be zero. -/
def fieldArgHi (c : Word) : BitVec 5 := c.extractLsb' 10 5

/-- R68: the PUT of a scalar width code. -/
def putOfWC (wc : BitVec 2) : Instr :=
  if wc = 0 then .put8 else if wc = 1 then .put16 else if wc = 2 then .put32 else .put64

/-- R68: the GET of a scalar width code. -/
def getOfWC (wc : BitVec 2) : Instr :=
  if wc = 0 then .get8 else if wc = 1 then .get16 else if wc = 2 then .get32 else .get64

/-- R69 item 3: a codec command, legal for N in 0..64. -/
def codecCommand (mk : BitVec 7 → Instr) (c : Word) : Except IllegalWord Instr :=
  if legalBitWidth (fieldArg c) then .ok (mk (fieldArg c)) else .error .bitWidthAbove64

/-- R69 item 4: a scalar command, legal when ARG is a width code only. -/
def scalarCommand (mk : BitVec 2 → Instr) (c : Word) : Except IllegalWord Instr :=
  if fieldArgHi c = 0 then .ok (mk (fieldWC c)) else .error .scalarArg

/-- R69 item 5: a command without argument. -/
def plainCommand (i : Instr) (c : Word) : Except IllegalWord Instr :=
  if fieldArg c = 0 then .ok i else .error .argNotZero

/-- The command a 64-bit command word stands for, or why it is illegal (R65 to R69). It looks at the
word alone. -/
def decode (c : Word) : Except IllegalWord Instr :=
  if fieldResHi c ≠ 0 ∨ fieldResLo c ≠ 0 then .error .reservedBits
  else if fieldOp c = 0x1 then codecCommand .pack c
  else if fieldOp c = 0x2 then codecCommand .unpack c
  else if fieldOp c = 0x3 then scalarCommand putOfWC c
  else if fieldOp c = 0x4 then scalarCommand getOfWC c
  else if fieldOp c = 0x5 then plainCommand .rewind c
  else if fieldOp c = 0x6 then plainCommand .clrstat c
  else .error .reservedOp

/-- R65: the command word with the given fields, reserved fields zero. -/
def commandWord (arg : BitVec 7) (op : BitVec 4) : Word := (arg.setWidth 64 <<< 8) ||| op.setWidth 64

/-- R66: the command word of a command. -/
def encode : Instr → Word
  | .pack n => commandWord n 0x1
  | .unpack n => commandWord n 0x2
  | .put8 => commandWord 0 0x3
  | .put16 => commandWord 1 0x3
  | .put32 => commandWord 2 0x3
  | .put64 => commandWord 3 0x3
  | .get8 => commandWord 0 0x4
  | .get16 => commandWord 1 0x4
  | .get32 => commandWord 2 0x4
  | .get64 => commandWord 3 0x4
  | .rewind => commandWord 0 0x5
  | .clrstat => commandWord 0 0x6

/-- The 64-bit command word whose low `nbits` bits are those of `w`, the others zero. -/
def tableWord (nbits w : Nat) : Word := BitVec.ofNat 64 (w % 2 ^ nbits)

/-- The command the decoder reads from a word numbered as spec/opcode_table.json numbers it, which is
how R65 numbers the command word. -/
def decodeTableWord (nbits w : Nat) : Option Instr := (decode (tableWord nbits w)).toOption

end Sys2Proof
end

