-- ==== Sys2Proof/Machine/Flags.lean ====
section
/-! DEFINITION. The fields of STATUS (R24), the outcomes of a command and their codes (R25, R150), and
the writing of STATUS at the end of a command (R154) and by CLRSTAT (R140). -/

namespace Sys2Proof.Machine

/-- How a command ends (R150). -/
inductive CommandOutcome where
  | ok
  | capacityExhausted
  | outOfRange
  | illegalCommand
deriving DecidableEq, Repr

/-- The RESULT code of an outcome (R25). -/
def CommandOutcome.code : CommandOutcome → BitVec 2
  | .ok => 0
  | .capacityExhausted => 1
  | .outOfRange => 2
  | .illegalCommand => 3

/-- `STATUS.RESULT`, bits 1:0 (R24). -/
def statusResult (st : Word) : BitVec 2 := st.extractLsb' 0 2

/-- `STATUS.STICKY_CAP`, bit 8 (R24). -/
def stickyCap (st : Word) : Bool := st.getLsbD 8

/-- `STATUS.STICKY_OOR`, bit 9 (R24). -/
def stickyOor (st : Word) : Bool := st.getLsbD 9

/-- `STATUS.STICKY_ILL`, bit 10 (R24). -/
def stickyIll (st : Word) : Bool := st.getLsbD 10

/-- The bits of STATUS that are fields; the others are reserved (R24). -/
def statusFieldMask : Word := 0x703

/-- The reserved bits of STATUS, 7:2 and 63:11, all read 0 (R24). -/
def statusReservedZero (st : Word) : Bool := st &&& ~~~statusFieldMask = 0

/-- `STATUS.RESULT <- code` (R154). -/
def setResult (st : Word) (code : BitVec 2) : Word := (st &&& ~~~(3 : Word)) ||| code.setWidth 64

/-- The sticky bit an outcome sets (R154); `OK` sets none. -/
def stickyBitOf : CommandOutcome → Word
  | .ok => 0
  | .capacityExhausted => 0x100
  | .outOfRange => 0x200
  | .illegalCommand => 0x400

/-- STATUS after a command that ended with the given outcome (R154). -/
def statusAfter (o : CommandOutcome) (st : Word) : Word := setResult st o.code ||| stickyBitOf o

/-- The three sticky bits cleared (R140). -/
def clearSticky (st : Word) : Word := st &&& ~~~(0x700 : Word)

end Sys2Proof.Machine
end

