-- ==== Sys2Proof/Config.lean ====
section
/-! DEFINITION. What the building of one block fixes (R6) and the free values of the spec. Each is a
constant with no body: nothing can evaluate it, so a theorem about the model holds for every value. -/

namespace Sys2Proof.Config

/-- The build parameter CAPACITY, OPEN in R6 (D22): the number of bytes of buffer storage, any value
0..2^64-1. It is what the CAPACITY register holds from power-on. Log 1. -/
opaque capacity : Word

/-- R50: the byte a read returns for an address no `put` has written since power-on, chosen afresh at
each read: the argument is the number of the draw. Log 2. -/
opaque unwrittenByte : Nat → Byte

/-- R107: a byte that PACK writes when some `V[i]` has a bit set at position `n` or above. Log 3. -/
opaque unmaskedByte : Nat → Byte

/-- R171: whether a byte that an interrupted command would have written keeps its old value. Log 4. -/
opaque interruptedKeeps : Nat → Bool

/-- R171: the arbitrary value of a byte that an interrupted command would have written. Log 4. -/
opaque interruptedByte : Nat → Byte

end Sys2Proof.Config
end

