-- ==== Sys2Proof/Machine/State.lean ====
section
/-! DEFINITION. The machine's state as the spec gives it (R20), the model's own input queue, response
list and draw counter, and the state at power-on (R33, R170). -/

namespace Sys2Proof.Machine

/-- One block: an ordered sequence of exactly 16 unsigned 64-bit integers (R7, R21); ARITY is 16, fixed
(R6). -/
abbrev Block := Vector Word 16

/-- Buffer storage (R29): the bytes written since power-on, addresses strictly rising; an address that
is not listed is *unwritten*. -/
abbrev Memory := List Host.Cell

/-- What an unlisted address holds: no value (R29). A read of it is a free value (R50). Log 2. -/
def Memory.unlisted : Option Byte := none

/-- The register number of the host port, `off[7:3]` (R60): offset `8 * index`. -/
abbrev RegIndex := BitVec 5

/-- One host access (R60). -/
inductive Access where
  /-- `HostRead(8 * reg)`. -/
  | read (reg : RegIndex)
  /-- `HostWrite(8 * reg, value)`; a write of register 0, CMD, issues a command (R64). -/
  | write (reg : RegIndex) (value : Word)
deriving DecidableEq, Repr

/-- What the world outside does to the block, one entry a step (R52, R170, R171). Log 6. -/
inductive Input where
  /-- A host access, performed completely (R178). -/
  | access (a : Access)
  /-- Hardware reset between accesses (R170). -/
  | reset
  /-- Hardware reset while the access `a` is outstanding or its command is running (R171). -/
  | resetDuring (a : Access)
  /-- Power-on: a reset with every STORE byte unwritten (R170). Log 14. -/
  | powerOn
deriving DecidableEq, Repr

/-- The machine's state: the six entries of R20 that are state, then the model's own three fields. -/
@[ext]
structure State where
  /-- `V[0..15]`, the block register file (R21). -/
  v : Block
  /-- `DATA` (R22). -/
  data : Word
  /-- `STATUS` (R24). -/
  status : Word
  /-- `CURSOR`, a byte address into STORE (R27). -/
  cursor : Word
  /-- `CAPACITY`, the build parameter (R28); no step changes it. -/
  capacity : Word
  /-- `STORE` (R29). -/
  store : Memory
  /-- The host accesses and resets still to be performed, oldest first. The model's own; log 6. -/
  inputs : List Input
  /-- The values returned to the host's reads, oldest first (R60). The model's own; log 7. -/
  responses : List Word
  /-- How many free values have been drawn. The model's own; log 5. -/
  draws : Nat
deriving DecidableEq, Repr

/-- Faults: there are none. The block has no trap, every access to STORE is checked against CAPACITY
first, and every register offset exists (R44, R45, R60, R155). -/
inductive Fault where
deriving DecidableEq, Repr

/-- Refusals. No arm of `exec` uses one: every command of the table has its meaning. -/
inductive Refusal where
  /-- Raised by an arm of `exec` for a command that has no meaning yet. Safe: the machine stops where
  the block goes on. -/
  | notModelled (mnemonic : String)
deriving DecidableEq, Repr

/-- `s` with block registers `v`. -/
def State.withV (s : State) (v : Block) : State := { s with v := v }

/-- `s` with DATA `d`. -/
def State.withData (s : State) (d : Word) : State := { s with data := d }

/-- `s` with STATUS `st`. -/
def State.withStatus (s : State) (st : Word) : State := { s with status := st }

/-- `s` with CURSOR `c`. -/
def State.withCursor (s : State) (c : Word) : State := { s with cursor := c }

/-- `s` with buffer storage `m`. -/
def State.withStore (s : State) (m : Memory) : State := { s with store := m }

/-- `s` with the input queue `q`. -/
def State.withInputs (s : State) (q : List Input) : State := { s with inputs := q }

/-- `s` with one more read response (R60: in order). -/
def State.respond (s : State) (x : Word) : State := { s with responses := s.responses ++ [x] }

/-- `s` with the draw counter at `d`. -/
def State.withDraws (s : State) (d : Nat) : State := { s with draws := d }

/-- The state just after power-on of a block built with the given CAPACITY (R33, R170), no input
pending. -/
def State.powerOn (capacity : Word) : State where
  v := Vector.replicate 16 0
  data := 0
  status := 0
  cursor := 0
  capacity := capacity
  store := []
  inputs := []
  responses := []
  draws := 0

/-- The machine right after reset: power-on of the block as built (R33, R170). Log 1. -/
def State.reset : State := State.powerOn Config.capacity

end Sys2Proof.Machine
end

