-- ==== Sys2Proof/Machine/Operands.lean ====
section
/-! DEFINITION. Operands: scalar widths and the bytes of a scalar (R42, R48, R68), the register map of
the host window (R61), and the masking condition on a block (R107). -/

namespace Sys2Proof.Machine

/-- The scalar access widths of the buffer (R6, R48). -/
inductive Width where
  | w8
  | w16
  | w32
  | w64
deriving DecidableEq, Repr

/-- The width in bits, `W` (R68). -/
def Width.bits : Width → Nat
  | .w8 => 8
  | .w16 => 16
  | .w32 => 32
  | .w64 => 64

/-- The width in bytes, `W / 8` (R68). -/
def Width.bytes : Width → Nat
  | .w8 => 1
  | .w16 => 2
  | .w32 => 4
  | .w64 => 8

/-- A value moved by one `put` or `get` (R12). It is held in 64 bits, of which the low `W` count. -/
structure Scalar where
  width : Width
  value : Word
deriving DecidableEq, Repr

/-- Bits `8j+7 : 8j` of a scalar (R42): the byte that lies at offset `j`. -/
def byteOf (v : Word) (j : Nat) : Byte := v.extractLsb' (8 * j) 8

/-- A byte placed at bits `8j+7 : 8j` (R42). -/
def byteAtOffset (b : Byte) (j : Nat) : Word := b.setWidth 64 <<< (8 * j)

/-- The bit-width operand `n = zext(c[14:8])`, not scaled (R67). -/
def bitWidth (n : BitVec 7) : Nat := n.toNat

/-- `V[i] < 2^n` for every `i`: no value has a bit at position `n` or above (R107, R175). Always so for
`n = 64`. -/
def masked (n : Nat) (v : Block) : Bool := (List.finRange 16).all fun i => v[i].toNat < 2 ^ n

/-- The registers of the host window (R61). -/
inductive HostReg where
  | cmd
  | status
  | cursor
  | capacity
  | data
  | reserved
  | v (i : Fin 16)
deriving DecidableEq, Repr

/-- The register at offset `8 * idx` (R61): CMD 0x00, STATUS 0x08, CURSOR 0x10, CAPACITY 0x18, DATA
0x20, reserved 0x28 to 0x78, `V[i]` at 0x80 + 8i. -/
def HostReg.ofIndex (idx : RegIndex) : HostReg :=
  if idx.getLsbD 4 then .v (idx.setWidth 4).toFin
  else if idx = 0 then .cmd
  else if idx = 1 then .status
  else if idx = 2 then .cursor
  else if idx = 3 then .capacity
  else if idx = 4 then .data
  else .reserved

end Sys2Proof.Machine
end

