-- ==== Sys2Proof/Machine/Ops.lean ====
section
/-! DEFINITION. The named operations: buffer storage (R29, R42, R43, R50), the buffer primitives `put`,
`get` and `rewind` (R44 to R46), sequences of them, and the end of a command (R154), which is this
hardware's only exception mechanism (R155). -/

namespace Sys2Proof.Machine

/-! ### Buffer storage -/

/-- The canonical form: addresses strictly rising. (No entry can equal what an unlisted address holds,
since that is no value.) -/
abbrev Memory.wf (m : Memory) : Prop := m.Pairwise fun x y => x.1 < y.1

/-- `STORE[a]`: the byte last written there, or unwritten (R29). -/
def Memory.read : Memory → Nat → Option Byte
  | [], _ => Memory.unlisted
  | (x, b) :: m, a => if a = x then some b else Memory.read m a

/-- `STORE[a] <- b`, keeping the canonical form (R42). -/
def Memory.write : Memory → Nat → Byte → Memory
  | [], a, b => [(a, b)]
  | (x, c) :: m, a, b =>
    if a < x then (a, b) :: (x, c) :: m
    else if a = x then (a, b) :: m
    else (x, c) :: Memory.write m a b

/-- `MemWrite(a, k, v)` (R42, R43): byte `j` of `v` at address `a + j`, for `j` in 0..k-1. -/
def memWrite (m : Memory) (a : Nat) : Nat → Word → Memory
  | 0, _ => m
  | k + 1, v => (memWrite m a k v).write (a + k) (byteOf v k)

/-- `byte_at(a)` (R50): the byte written there, or draw number `d`; and the number of the next draw. -/
def byteAt (m : Memory) (a d : Nat) : Byte × Nat :=
  match m.read a with
  | some b => (b, d)
  | none => (Config.unwrittenByte d, d + 1)

/-- `MemRead(a, k)` (R42, R43), zero-extended to 64 bits, and the number of the next draw. The bytes
are read in the order `j = 0, 1, ..., k-1`. -/
def memRead (m : Memory) (a : Nat) : Nat → Nat → Word × Nat
  | 0, d => (0, d)
  | k + 1, d =>
    let low := memRead m a k d
    let top := byteAt m (a + k) low.2
    (low.1 ||| byteAtOffset top.1 k, top.2)

/-! ### The buffer primitives -/

/-- The bytes remaining, `CAPACITY - CURSOR`, for writing and for reading alike (R28, R41). Log 13. -/
def State.remaining (s : State) : Nat := s.capacity.toNat - s.cursor.toNat

/-- CURSOR advanced by the bytes of one scalar (R44, R45). -/
def State.advance (s : State) (w : Width) : State := s.withCursor (s.cursor + BitVec.ofNat 64 w.bytes)

/-- `put(W, v)` (R44): `none` is FAIL, with STORE and CURSOR unchanged. -/
def put (w : Width) (v : Word) (s : State) : Option State :=
  if s.remaining < w.bytes then none
  else some ((s.withStore (memWrite s.store s.cursor.toNat w.bytes v)).advance w)

/-- `get(W)` (R45): `none` is OUT_OF_RANGE, with STORE and CURSOR unchanged. The value is
zero-extended. -/
def get (w : Width) (s : State) : Option (Word × State) :=
  if s.remaining < w.bytes then none
  else
    let r := memRead s.store s.cursor.toNat w.bytes s.draws
    some (r.1, (s.withDraws r.2).advance w)

/-- `rewind()` (R46): `CURSOR <- 0`. -/
def rewind (s : State) : State := s.withCursor 0

/-- The puts of a scalar sequence in order, up to the first that fails (R105, R106): whether all
succeeded, and the state reached. -/
def putAll : List Scalar → State → Bool × State
  | [], s => (true, s)
  | c :: cs, s =>
    match put c.width c.value s with
    | none => (false, s)
    | some s' => putAll cs s'

/-- The gets of a scalar sequence in order, up to the first that fails (R109, R110): the values read
if all succeeded, and the state reached. -/
def getAll : List Width → State → Option (List Word) × State
  | [], s => (some [], s)
  | w :: ws, s =>
    match get w s with
    | none => (none, s)
    | some (x, s') =>
      let rest := getAll ws s'
      (rest.1.map (x :: ·), rest.2)

/-! ### The end of a command -/

/-- `end_of_command(outcome)` (R154): STATUS takes the outcome; nothing else changes. This is how the
block reports every error; it has no trap and nothing to return from (R155, R156). -/
def endOfCommand (o : CommandOutcome) (s : State) : State := s.withStatus (statusAfter o s.status)

/-- An illegal command word raises IllegalCommand and changes no other state (R141, R153). -/
def illegalCommand (s : State) : State := endOfCommand .illegalCommand s

end Sys2Proof.Machine
end

