-- ==== Sys2Proof/Machine/BufferCommands.lean ====
section
/-! DEFINITION. The buffer commands PUT.W, GET.W and REWIND (40_buffer.md, R80 to R90). -/

namespace Sys2Proof.Machine

/-- PUT.W (R80): append the low `W` bits of DATA, or end CAP with STORE and CURSOR unchanged. -/
def putCommand (w : Width) (s : State) : State :=
  match put w s.data s with
  | none => endOfCommand .capacityExhausted s
  | some s' => endOfCommand .ok s'

/-- GET.W (R85): read one scalar into DATA, zero-extended, or end OOR with CURSOR and DATA unchanged. -/
def getCommand (w : Width) (s : State) : State :=
  match get w s with
  | none => endOfCommand .outOfRange s
  | some (x, s') => endOfCommand .ok (s'.withData x)

/-- PUT.8 (R81). -/
def execPut8 (s : State) : Host.Outcome State Fault Refusal := .next (putCommand .w8 s)

/-- PUT.16 (R82). -/
def execPut16 (s : State) : Host.Outcome State Fault Refusal := .next (putCommand .w16 s)

/-- PUT.32 (R83). -/
def execPut32 (s : State) : Host.Outcome State Fault Refusal := .next (putCommand .w32 s)

/-- PUT.64 (R84). -/
def execPut64 (s : State) : Host.Outcome State Fault Refusal := .next (putCommand .w64 s)

/-- GET.8 (R86). -/
def execGet8 (s : State) : Host.Outcome State Fault Refusal := .next (getCommand .w8 s)

/-- GET.16 (R87). -/
def execGet16 (s : State) : Host.Outcome State Fault Refusal := .next (getCommand .w16 s)

/-- GET.32 (R88). -/
def execGet32 (s : State) : Host.Outcome State Fault Refusal := .next (getCommand .w32 s)

/-- GET.64 (R89). -/
def execGet64 (s : State) : Host.Outcome State Fault Refusal := .next (getCommand .w64 s)

/-- REWIND (R90): CURSOR to the start; it always ends OK. -/
def execRewind (s : State) : Host.Outcome State Fault Refusal := .next (endOfCommand .ok (rewind s))

end Sys2Proof.Machine
end

