-- ==== Sys2Proof/Machine/Codec.lean ====
section
/-! DEFINITION. The Bit-Width Codec's pure part: the greedy decomposition both directions share (R100
to R102), the scalars PACK writes (R104, R105, R107) and the block UNPACK assembles (R104, R109). -/

namespace Sys2Proof.Machine

/-! ### The shared decomposition -/

/-- LANES (R100). -/
def laneWidths : List Width := [.w64, .w32, .w16, .w8]

/-- TILES (R101). -/
def tileWidths : List Width := [.w64, .w32, .w16]

/-- The greedy loop of R100 and R101: take the first of `ws` (largest first) that is at most `m`,
subtract it and go on, at most `fuel` times; the widths taken, and what is left when none fits. -/
def greedy (ws : List Width) : Nat → Nat → List Width × Nat
  | 0, m => ([], m)
  | fuel + 1, m =>
    match ws.find? (fun w => w.bits ≤ m) with
    | none => ([], m)
    | some w =>
      let rest := greedy ws fuel (m - w.bits)
      (w :: rest.1, rest.2)

/-- `lane_seq(n)` (R100): the lane widths and the remainder `r`. -/
def laneSeq (n : Nat) : List Width × Nat := greedy laneWidths n n

/-- `tile_seq(r)` (R101): the widths of the accumulator words that hold `16r` bits. -/
def tileSeq (r : Nat) : List Width := (greedy tileWidths (16 * r) (16 * r)).1

/-- `scalar_seq(n)` (R102): sixteen scalars for each lane, then the tiles. -/
def scalarSeq (n : Nat) : List Width :=
  (laneSeq n).1.flatMap (List.replicate 16) ++ tileSeq (laneSeq n).2

/-- The bytes of a sequence of scalars. -/
def totalBytes (ws : List Width) : Nat := (ws.map Width.bytes).sum

/-- The bits of a sequence of scalars. -/
def totalBits (ws : List Width) : Nat := (ws.map Width.bits).sum

/-! ### The virtual bitstream -/

/-- The largest virtual bitstream, `16 * 7` bits (R104). -/
abbrev Stream := BitVec 112

/-- `mask(k)`: the value `2^k - 1` (R8). -/
def mask (k : Nat) : Word := BitVec.ofNat 64 (2 ^ k - 1)

/-- `S` (R104): the low `r` bits of value `i` at stream bits `i*r + r-1 : i*r`. -/
def streamOf (r : Nat) (work : Fin 16 → Word) : Stream :=
  (List.finRange 16).foldl (fun st i => st ||| ((work i &&& mask r).setWidth 112 <<< (i.val * r))) 0

/-- The low `W` bits of `S` from stream bit `p` on: an accumulator word (R104). -/
def tileWord (st : Stream) (p : Nat) : Word := st.extractLsb' p 64

/-- `S[i*r + r-1 : i*r]`: the field of value `i` (R104). -/
def streamField (st : Stream) (r : Nat) (i : Fin 16) : Word :=
  st.extractLsb' (i.val * r) 64 &&& mask r

/-! ### PACK -/

/-- Aligned-lane peeling (R105): for each lane the low `L` bits of every working value, value 0 first,
the working copy shifted right after each lane; and the working copy that is left. -/
def laneScalars : List Width → (Fin 16 → Word) → List Scalar × (Fin 16 → Word)
  | [], work => ([], work)
  | w :: ws, work =>
    let rest := laneScalars ws (fun i => work i >>> w.bits)
    ((List.finRange 16).map (fun i => ⟨w, work i⟩) ++ rest.1, rest.2)

/-- Sub-byte bitstream tiling (R105): the accumulator words of `S` from stream bit `p` on. -/
def tileScalars (st : Stream) : List Width → Nat → List Scalar
  | [], _ => []
  | w :: ws, p => ⟨w, tileWord st p⟩ :: tileScalars st ws (p + w.bits)

/-- The scalars PACK n writes for a masked block, in order (R105). -/
def packScalars (n : Nat) (v : Block) : List Scalar :=
  let lanes := laneScalars (laneSeq n).1 (fun i => v[i])
  let r := (laneSeq n).2
  lanes.1 ++ tileScalars (streamOf r lanes.2) (tileSeq r) 0

/-- A scalar of `k` arbitrary bytes, drawn from number `d` on (R107). -/
def freeScalarValue (d : Nat) : Nat → Word
  | 0 => 0
  | k + 1 => freeScalarValue d k ||| byteAtOffset (Config.unmaskedByte (d + k)) k

/-- The scalars PACK writes for a block that is not masked: the same widths, every byte arbitrary
(R107). -/
def freeScalars : List Width → Nat → List Scalar
  | [], _ => []
  | w :: ws, d => ⟨w, freeScalarValue d w.bytes⟩ :: freeScalars ws (d + w.bytes)

/-- The scalars PACK n writes from state `s`, and the number of the next draw (R105, R107). -/
def packPlan (n : Nat) (s : State) : List Scalar × Nat :=
  if masked n s.v then (packScalars n s.v, s.draws)
  else (freeScalars (scalarSeq n) s.draws, s.draws + totalBytes (scalarSeq n))

/-! ### UNPACK -/

/-- The lane reads OR-ed into the output values, `off` growing by each lane's width (R109): the values,
and the scalars not yet used. -/
def assembleLanes : List Width → Nat → List Word → (Fin 16 → Word) → (Fin 16 → Word) × List Word
  | [], _, xs, out => (out, xs)
  | w :: ws, off, xs, out =>
    assembleLanes ws (off + w.bits) (xs.drop 16) (fun i => out i ||| (xs.getD i.val 0 <<< off))

/-- `S` reassembled from the tile reads (R109): word `t` at stream bit `p_t`. -/
def assembleStream : List Width → Nat → List Word → Stream
  | [], _, _ => 0
  | _, _, [] => 0
  | w :: ws, p, x :: xs => (x.setWidth 112 <<< p) ||| assembleStream ws (p + w.bits) xs

/-- The block UNPACK n makes of the scalars it read (R109). -/
def assemble (n : Nat) (xs : List Word) : Block :=
  let r := (laneSeq n).2
  let lanes := assembleLanes (laneSeq n).1 0 xs (fun _ => 0)
  let st := assembleStream (tileSeq r) 0 lanes.2
  Vector.ofFn fun i => lanes.1 i ||| (streamField st r i <<< (n - r))

end Sys2Proof.Machine
end

