-- ==== Sys2Proof/Machine/CodecCommands.lean ====
section
/-! DEFINITION. The codec commands PACK and UNPACK (41_codec.md, R105 to R112). -/

namespace Sys2Proof.Machine

/-- PACK n for `n <= 64` (R105 to R108): put the scalars in order; at the first that does not fit the
command ends CAP, and what was written stays (R106). -/
def packCommand (n : Nat) (s : State) : State :=
  let plan := packPlan n s
  match putAll plan.1 (s.withDraws plan.2) with
  | (true, s') => endOfCommand .ok s'
  | (false, s') => endOfCommand .capacityExhausted s'

/-- UNPACK n for `n <= 64` (R109 to R112): get the scalars in order and write V; at the first that is
not there the command ends OOR with V unchanged (R110). -/
def unpackCommand (n : Nat) (s : State) : State :=
  match getAll (scalarSeq n) s with
  | (some xs, s') => endOfCommand .ok (s'.withV (assemble n xs))
  | (none, s') => endOfCommand .outOfRange s'

/-- PACK n (R105). A width in 65..127, which no legal word carries, is an illegal command (R69, R141).
Log 12. -/
def execPack (n : BitVec 7) (s : State) : Host.Outcome State Fault Refusal :=
  .next (if legalBitWidth n then packCommand (bitWidth n) s else illegalCommand s)

/-- UNPACK n (R109). A width in 65..127, which no legal word carries, is an illegal command (R69, R141).
Log 12. -/
def execUnpack (n : BitVec 7) (s : State) : Host.Outcome State Fault Refusal :=
  .next (if legalBitWidth n then unpackCommand (bitWidth n) s else illegalCommand s)

end Sys2Proof.Machine
end

