-- ==== Sys2Proof/Machine/StatusCommands.lean ====
section
/-! DEFINITION. The status command CLRSTAT (42_status.md, R140). -/

namespace Sys2Proof.Machine

/-- CLRSTAT (R140): the sticky bits cleared, then RESULT OK. -/
def execClrstat (s : State) : Host.Outcome State Fault Refusal :=
  .next (endOfCommand .ok (s.withStatus (clearSticky s.status)))

end Sys2Proof.Machine
end

