-- ==== Sys2Proof/Machine/Dispatch.lean ====
section
/-! DEFINITION. The meaning of each command: one arm per constructor of Instr. -/

namespace Sys2Proof.Machine

def exec (i : Instr) (s : State) : Host.Outcome State Fault Refusal :=
  match i with
  | .pack n => Sys2Proof.Machine.execPack n s
  | .unpack n => Sys2Proof.Machine.execUnpack n s
  | .put8 => Sys2Proof.Machine.execPut8 s
  | .put16 => Sys2Proof.Machine.execPut16 s
  | .put32 => Sys2Proof.Machine.execPut32 s
  | .put64 => Sys2Proof.Machine.execPut64 s
  | .get8 => Sys2Proof.Machine.execGet8 s
  | .get16 => Sys2Proof.Machine.execGet16 s
  | .get32 => Sys2Proof.Machine.execGet32 s
  | .get64 => Sys2Proof.Machine.execGet64 s
  | .rewind => Sys2Proof.Machine.execRewind s
  | .clrstat => Sys2Proof.Machine.execClrstat s

end Sys2Proof.Machine
end

