-- ==== Sys2Proof/Machine/HostPort.lean ====
section
/-! DEFINITION. The host port (R60 to R64): register reads and writes, the issue of a command, and
hardware reset (R33, R170, R171). -/

namespace Sys2Proof.Machine

/-! ### Registers -/

/-- What a host read of a register returns (R61 to R63). -/
def readRegister (s : State) : HostReg → Word
  | .cmd => 0
  | .status => s.status
  | .cursor => s.cursor
  | .capacity => s.capacity
  | .data => s.data
  | .reserved => 0
  | .v i => s.v[i]

/-- `HostRead(8 * idx)` (R60, R63): one response, and no side effect (R51). -/
def hostRead (idx : RegIndex) (s : State) : State := s.respond (readRegister s (HostReg.ofIndex idx))

/-- The command a word stands for is executed; an illegal word ends ILL (R64, R141). -/
def issueCommand (c : Word) (s : State) : Host.Outcome State Fault Refusal :=
  match decode c with
  | .ok i => exec i s
  | .error _ => .next (illegalCommand s)

/-- `HostWrite(8 * idx, x)`: CMD issues a command (R64), DATA and `V[i]` take the value (R63), a write
elsewhere changes nothing (R62). -/
def hostWrite (idx : RegIndex) (x : Word) (s : State) : Host.Outcome State Fault Refusal :=
  match HostReg.ofIndex idx with
  | .cmd => issueCommand x s
  | .data => .next (s.withData x)
  | .v i => .next (s.withV (s.v.set i x))
  | .status => .next s
  | .cursor => .next s
  | .capacity => .next s
  | .reserved => .next s

/-- One host access, performed completely (R52, R178). -/
def performAccess (a : Access) (s : State) : Host.Outcome State Fault Refusal :=
  match a with
  | .read idx => .next (hostRead idx s)
  | .write idx x => hostWrite idx x s

/-! ### Reset -/

/-- Hardware reset (R33, R170): the registers take their reset values; STORE is kept. -/
def hardwareReset (s : State) : State :=
  (((s.withV (Vector.replicate 16 0)).withData 0).withStatus 0).withCursor 0

/-- The bytes from CURSOR on that a command may write (R171): the scalar of a PUT.W that fits, for PACK
`2n` bytes clipped to CAPACITY, and none for the others. Log 4. -/
def writeExtent (i : Instr) (s : State) : Nat :=
  match i with
  | .pack n => min (2 * bitWidth n) s.remaining
  | .put8 => if s.remaining < Width.w8.bytes then 0 else Width.w8.bytes
  | .put16 => if s.remaining < Width.w16.bytes then 0 else Width.w16.bytes
  | .put32 => if s.remaining < Width.w32.bytes then 0 else Width.w32.bytes
  | .put64 => if s.remaining < Width.w64.bytes then 0 else Width.w64.bytes
  | .unpack _ => 0
  | .get8 => 0
  | .get16 => 0
  | .get32 => 0
  | .get64 => 0
  | .rewind => 0
  | .clrstat => 0

/-- The bytes from CURSOR on that an access may write: those of its command, if it issues one (R171). -/
def accessExtent (a : Access) (s : State) : Nat :=
  match a with
  | .read _ => 0
  | .write idx x =>
    match HostReg.ofIndex idx, decode x with
    | .cmd, .ok i => writeExtent i s
    | _, _ => 0

/-- The `k` bytes from address `a` on after an interrupted command (R171): each keeps its old value or
takes an arbitrary one. Byte `j` uses draw number `d + j`. -/
def interruptBytes (m : Memory) (a d : Nat) : Nat → Memory
  | 0 => m
  | k + 1 =>
    let m' := interruptBytes m a d k
    if Config.interruptedKeeps (d + k) then m' else m'.write (a + k) (Config.interruptedByte (d + k))

/-- Reset while an access is outstanding (R171): the bytes its command would have written hold old or
arbitrary values, the registers take their reset values, and a read gets no response. -/
def resetDuringAccess (a : Access) (s : State) : State :=
  let k := accessExtent a s
  hardwareReset ((s.withStore (interruptBytes s.store s.cursor.toNat s.draws k)).withDraws (s.draws + k))

/-- Power-on (R170): a reset with every STORE byte unwritten. -/
def powerOnReset (s : State) : State := (hardwareReset s).withStore []

/-! ### Inputs -/

/-- What one input does. -/
def performInput (x : Input) (s : State) : Host.Outcome State Fault Refusal :=
  match x with
  | .access a => performAccess a s
  | .reset => .next (hardwareReset s)
  | .resetDuring a => .next (resetDuringAccess a s)
  | .powerOn => .next (powerOnReset s)

/-- The next input is taken from the queue and performed. With none pending the block is ready and
nothing changes (R165). Log 8. -/
def performNext (s : State) : Host.Outcome State Fault Refusal :=
  match s.inputs with
  | [] => .next s
  | x :: rest => performInput x (s.withInputs rest)

/-- The host's write of a command word to CMD, offset 0x00 (R64). -/
def issueInput (c : Word) : Input := .access (.write 0 c)

end Sys2Proof.Machine
end

