-- ==== Sys2Proof/Machine/Step.lean ====
section
/-! DEFINITION. One step: the block performs the next host access or reset (R52, R178). -/

namespace Sys2Proof.Machine

/-- One step. A command runs to completion within it (R178). -/
def step (s : State) : Host.Outcome State Fault Refusal := performNext s

/-- `s` with the host's write of a command word to CMD as its next input: the block has no program
counter and fetches nothing (R31, R54), so this is where its next command comes from. Log 6. -/
def State.withFetchWord (s : State) (nbits w : Nat) : State :=
  s.withInputs (issueInput (tableWord nbits w) :: s.inputs)

end Sys2Proof.Machine
end

