-- ==== Sys2Proof/Machine/HostProgram.lean ====
section
/-! DEFINITION. The assembler notation of host programs (R72, R73): each line stands for host accesses.
A program is a list of lines; placed in the input queue it is what the host does. -/

namespace Sys2Proof.Machine

/-- The offset of a register divided by 8 (R61). Of the reserved offsets it gives the first, 0x28. -/
def HostReg.index : HostReg → RegIndex
  | .cmd => 0
  | .status => 1
  | .cursor => 2
  | .capacity => 3
  | .data => 4
  | .reserved => 5
  | .v i => BitVec.ofNat 5 (16 + i.val)

/-- One line of a host program (R72, R73). -/
inductive HostLine where
  /-- `WR <reg>, <value>`. -/
  | wr (reg : HostReg) (value : Word)
  /-- `RD <reg>`. -/
  | rd (reg : HostReg)
  /-- `CMD <command>`. -/
  | cmd (i : Instr)
  /-- The pseudo-instruction `WRBLK a0, ..., a15`. -/
  | wrblk (a : Block)
  /-- `; text`: a comment does not execute. -/
  | comment (text : String)
deriving DecidableEq, Repr

/-- The host accesses of one line, in order (R72, R73). -/
def HostLine.accesses : HostLine → List Access
  | .wr reg x => [.write reg.index x]
  | .rd reg => [.read reg.index]
  | .cmd i => [.write HostReg.cmd.index (encode i)]
  | .wrblk a => (List.finRange 16).map fun i => .write (HostReg.v i).index a[i]
  | .comment _ => []

/-- The inputs of a host program (R72). -/
def programInputs (lines : List HostLine) : List Input := (lines.flatMap HostLine.accesses).map .access

end Sys2Proof.Machine
end

