-- ==== Sys2Proof/Safety.lean ====
section
/-! DEFINITION. What counts as a proper state of the block, and the terms the claims use. -/

namespace Sys2Proof.Machine

/-- What holds of the block between any two host accesses: CURSOR is in 0..CAPACITY (R27, R34), STORE
is in canonical form and has no byte at or above CAPACITY (R29), and the reserved bits of STATUS are 0
(R24). -/
structure State.Inv (s : State) : Prop where
  cursor_le : s.cursor.toNat ≤ s.capacity.toNat
  store_wf : s.store.wf
  store_below : ∀ c ∈ s.store, c.1 < s.capacity.toNat
  status_reserved : statusReservedZero s.status = true

/-- The PUT command of a width (R80). -/
def putInstr : Width → Instr
  | .w8 => .put8
  | .w16 => .put16
  | .w32 => .put32
  | .w64 => .put64

/-- The GET command of a width (R85). -/
def getInstr : Width → Instr
  | .w8 => .get8
  | .w16 => .get16
  | .w32 => .get32
  | .w64 => .get64

/-- The scalar width code of a width (R68). -/
def widthCode : Width → BitVec 7
  | .w8 => 0
  | .w16 => 1
  | .w32 => 2
  | .w64 => 3

/-- `STORE[a]` in state `s`: a written byte, or unwritten. -/
def State.byte (s : State) (a : Nat) : Option Byte := s.store.read a

/-- `o_k` (R103): the bits of each value that the lane sections before section `k` hold. -/
def laneOffset (n k : Nat) : Nat := totalBits ((laneSeq n).1.take k)

/-- The wire format of R103 and R104, for the block `v` at width `n` from byte address `B`: every byte of
the stream that `m` has written is the one the format puts there. A lane section `k` of width `L` holds,
for value `i`, bits `o_k + L - 1 .. o_k`, little-endian from byte `B + 2*o_k + i*(L/8)`; the tile sections
hold, from byte `B + 2*(n - r)`, the virtual bitstream: stream bit `q` is bit `q mod r` of the remainder
of value `q / r`. -/
def CarriesStream (n : Nat) (v : Block) (m : Memory) (B : Nat) : Prop :=
  (∀ (k : Nat) (L : Width) (i : Fin 16) (j : Nat) (b : Byte), (laneSeq n).1[k]? = some L → j < L.bytes →
    m.read (B + 2 * laneOffset n k + i.val * L.bytes + j) = some b →
    b = v[i].extractLsb' (laneOffset n k + 8 * j) 8) ∧
  (∀ (i : Fin 16) (t : Nat) (b : Byte), t < (laneSeq n).2 →
    m.read (B + 2 * (n - (laneSeq n).2) + (i.val * (laneSeq n).2 + t) / 8) = some b →
    b.getLsbD ((i.val * (laneSeq n).2 + t) % 8) = v[i].getLsbD (n - (laneSeq n).2 + t))

/-- R69, item by item, on the bits of the command word: a legal word. -/
def legalWord (c : Word) : Prop :=
  ((∀ b, 15 ≤ b → c.getLsbD b = false) ∧ (∀ b, 4 ≤ b → b ≤ 7 → c.getLsbD b = false)) ∧
  (1 ≤ c.toNat % 16 ∧ c.toNat % 16 ≤ 6) ∧
  (c.toNat % 16 = 1 ∨ c.toNat % 16 = 2 → c.toNat / 256 % 128 ≤ 64) ∧
  (c.toNat % 16 = 3 ∨ c.toNat % 16 = 4 → ∀ b, 10 ≤ b → b ≤ 14 → c.getLsbD b = false) ∧
  (c.toNat % 16 = 5 ∨ c.toNat % 16 = 6 → ∀ b, 8 ≤ b → b ≤ 14 → c.getLsbD b = false)

/-- What the end of a command with outcome `o` does to STATUS (R154): RESULT is the outcome's code, the
sticky bit of the outcome is set, and every other bit is as before. -/
def StatusEnds (o : CommandOutcome) (old new : Word) : Prop :=
  statusResult new = o.code ∧
  stickyCap new = (stickyCap old || decide (o = .capacityExhausted)) ∧
  stickyOor new = (stickyOor old || decide (o = .outOfRange)) ∧
  stickyIll new = (stickyIll old || decide (o = .illegalCommand)) ∧
  ∀ b, 2 ≤ b → (b < 8 ∨ 10 < b) → new.getLsbD b = old.getLsbD b

/-- CAPACITY, the pending inputs and the read responses are as before. -/
def SurroundingsKept (s t : State) : Prop :=
  t.capacity = s.capacity ∧ t.inputs = s.inputs ∧ t.responses = s.responses

/-- The part of buffer storage below address `e`. -/
def storeBelow (m : Memory) (e : Nat) : Memory := m.filter fun c => c.1 < e

/-- How many of the `j` bytes from address `a` on no `put` has written (R50). -/
def unwrittenBefore (m : Memory) (a j : Nat) : Nat := (List.range j).countP fun i => m.read (a + i) = none

/-- The byte that a read of consecutive bytes from address `a` on, begun at draw number `d`, sees in its place
`j`: the written one, or a draw of its own (R50). -/
def seenByte (m : Memory) (a d j : Nat) : Byte :=
  (m.read (a + j)).getD (Config.unwrittenByte (d + unwrittenBefore m a j))

end Sys2Proof.Machine
end

