-- ==== Sys2Proof/Certificates/Slice0/Obligations.lean ====
section
/-! DEFINITION. The statements about the bitpack block. Each docstring names the rules of the spec it rests
on. CURSOR, CAPACITY and addresses are compared as natural numbers; `s.byte a` is `STORE[a]` in state `s`. -/

open Sys2Proof Sys2Proof.Machine

/-! ### Encoding -/

/-- The command words of R66's table, and the vectors T-E of 95_test_vectors.md, decode as listed. -/
def Obligations.TableWordsDecodeAsListed : Prop :=
  decode 0x301 = .ok (.pack 3) ∧ decode 0x4001 = .ok (.pack 64) ∧ decode 0x1702 = .ok (.unpack 23) ∧
  decode 0x2 = .ok (.unpack 0) ∧ decode 0x3 = .ok .put8 ∧ decode 0x103 = .ok .put16 ∧
  decode 0x203 = .ok .put32 ∧ decode 0x303 = .ok .put64 ∧ decode 0x4 = .ok .get8 ∧
  decode 0x104 = .ok .get16 ∧ decode 0x204 = .ok .get32 ∧ decode 0x304 = .ok .get64 ∧
  decode 0x5 = .ok .rewind ∧ decode 0x6 = .ok .clrstat ∧
  decode 0x0 = .error .reservedOp ∧ decode 0x7 = .error .reservedOp ∧ decode 0xF = .error .reservedOp ∧
  decode 0x4101 = .error .bitWidthAbove64 ∧ decode 0x7F02 = .error .bitWidthAbove64 ∧
  decode 0x403 = .error .scalarArg ∧ decode 0x13 = .error .reservedBits ∧
  decode 0x100000001 = .error .reservedBits ∧ decode 0x8000000000000001 = .error .reservedBits ∧
  decode 0x105 = .error .argNotZero ∧ decode 0x106 = .error .argNotZero

/-- Decoding the command word of a well-formed command gives that command back, with N at every value 0..64
(R65 to R68). -/
def Obligations.DecodeOfEncodeIsTheCommand : Prop :=
  ∀ i : Instr, i.wellFormed = true → decode (encode i) = .ok i

/-- A word that decodes is the command word of the command it decodes to, and that command is well-formed:
no two words mean the same command (R65, R66, R69). -/
def Obligations.EncodeOfDecodeIsTheWord : Prop :=
  ∀ (c : Word) (i : Instr), decode c = .ok i → i.wellFormed = true ∧ encode i = c

/-- R69: a word decodes exactly when it meets the five items, and a word that does not executes as R141 says,
in every state. -/
def Obligations.LegalWordsAreThoseOfRule69 : Prop :=
  ∀ c : Word, ((∃ i, decode c = .ok i) ↔ legalWord c) ∧
    (¬legalWord c → ∀ (s : State) (rest : List Input), s.inputs = issueInput c :: rest →
      ∃ t, step s = .next t ∧ StatusEnds .illegalCommand s.status t.status ∧
        t = (s.withInputs rest).withStatus t.status)

/-! ### The step -/

/-- A write of a legal command word to CMD runs exactly the command it stands for, in the state it finds
(R64, R178). -/
def Obligations.StepRunsTheIssuedCommand : Prop :=
  ∀ (s : State) (c : Word) (i : Instr) (rest : List Input), s.inputs = issueInput c :: rest →
    decode c = .ok i → step s = exec i (s.withInputs rest)

/-- A table word placed as the next input is the command the next step runs (the model's form of R64, log 6). -/
def Obligations.FetchWordIsRunNext : Prop :=
  ∀ (s : State) (nbits w : Nat) (i : Instr), decodeTableWord nbits w = some i →
    step (s.withFetchWord nbits w) = exec i s

/-- R141: an illegal command word sets RESULT to ILL and STICKY_ILL, and changes nothing else, whatever the
state; from STATUS 0 it leaves 0x403. -/
def Obligations.IllegalWordOnlyReports : Prop :=
  ∀ (s : State) (c : Word) (rest : List Input), ¬legalWord c → s.inputs = issueInput c :: rest →
    ∃ t, step s = .next t ∧ StatusEnds .illegalCommand s.status t.status ∧
      t = (s.withInputs rest).withStatus t.status ∧ (s.status = 0 → t.status = 0x403)

/-- Every step completes, and performs exactly the input at the head of the queue, on the state from which that
input was taken: no command waits, traps or locks the block (R155, R178, R181). With nothing pending nothing changes
(the model's choice, log 8). -/
def Obligations.EveryStepCompletesOneInput : Prop :=
  ∀ s : State, ∃ t, step s = .next t ∧ t.inputs = s.inputs.tail ∧
    (∀ x rest, s.inputs = x :: rest → performInput x (s.withInputs rest) = .next t) ∧ (s.inputs = [] → t = s)

/-! ### PUT, GET, REWIND, CLRSTAT -/

/-- R80 to R84: PUT.W, from its command word on. With room it stores the low W bits of DATA little-endian
from CURSOR on, advances CURSOR by W/8 and ends OK; without room it ends CAP and changes nothing but STATUS.
The start address is arbitrary. -/
def Obligations.PutAppendsScalarOrEndsCap : Prop :=
  ∀ (w : Width) (s : State),
    decode (commandWord (widthCode w) 0x3) = .ok (putInstr w) ∧
    (s.cursor.toNat + w.bytes ≤ s.capacity.toNat → ∃ t, exec (putInstr w) s = .next t ∧
      t.cursor.toNat = s.cursor.toNat + w.bytes ∧
      (∀ j, j < w.bytes → t.byte (s.cursor.toNat + j) = some (s.data.extractLsb' (8 * j) 8)) ∧
      (∀ a, a < s.cursor.toNat ∨ s.cursor.toNat + w.bytes ≤ a → t.byte a = s.byte a) ∧
      StatusEnds .ok s.status t.status ∧ t.v = s.v ∧ t.data = s.data ∧ t.draws = s.draws ∧
      SurroundingsKept s t) ∧
    (s.capacity.toNat < s.cursor.toNat + w.bytes → ∃ t, exec (putInstr w) s = .next t ∧
      StatusEnds .capacityExhausted s.status t.status ∧ t = s.withStatus t.status)

/-- R85 to R89: GET.W, from its command word on. With W/8 bytes remaining, DATA takes the bytes from CURSOR
on, little-endian, each written byte as it was written, zero-extended; CURSOR advances and the command ends
OK. Otherwise it ends OOR and changes nothing but STATUS. STORE never changes. -/
def Obligations.GetReadsScalarOrEndsOor : Prop :=
  ∀ (w : Width) (s : State),
    decode (commandWord (widthCode w) 0x4) = .ok (getInstr w) ∧
    (s.cursor.toNat + w.bytes ≤ s.capacity.toNat → ∃ t, exec (getInstr w) s = .next t ∧
      t.cursor.toNat = s.cursor.toNat + w.bytes ∧
      (∀ j b, j < w.bytes → s.byte (s.cursor.toNat + j) = some b → t.data.extractLsb' (8 * j) 8 = b) ∧
      (∀ b, w.bits ≤ b → t.data.getLsbD b = false) ∧
      StatusEnds .ok s.status t.status ∧ t.v = s.v ∧ t.store = s.store ∧ SurroundingsKept s t) ∧
    (s.capacity.toNat < s.cursor.toNat + w.bytes → ∃ t, exec (getInstr w) s = .next t ∧
      StatusEnds .outOfRange s.status t.status ∧ t = s.withStatus t.status)

/-- R50: each byte GET.W reads that no put has written is a free value of its own, drawn afresh: the next draw
for each such byte, in address order (the draw counter is the model's, logs 2 and 5). -/
def Obligations.UnwrittenBytesReadAsFreshDraws : Prop :=
  ∀ (w : Width) (s : State), s.cursor.toNat + w.bytes ≤ s.capacity.toNat → ∃ t, exec (getInstr w) s = .next t ∧
    t.draws = s.draws + unwrittenBefore s.store s.cursor.toNat w.bytes ∧
    ∀ j, j < w.bytes → s.byte (s.cursor.toNat + j) = none →
      t.data.extractLsb' (8 * j) 8 = Config.unwrittenByte (s.draws + unwrittenBefore s.store s.cursor.toNat j)

/-- R42, R43, R85: a scalar put and then got at the same address comes back, zero-extended, for every width
and every address. -/
def Obligations.PutThenGetReturnsTheScalar : Prop :=
  ∀ (w : Width) (s t : State), s.cursor.toNat + w.bytes ≤ s.capacity.toNat → exec (putInstr w) s = .next t →
    ∃ u, exec (getInstr w) (t.withCursor s.cursor) = .next u ∧ statusResult u.status = 0 ∧
      ∀ b, u.data.getLsbD b = (decide (b < w.bits) && s.data.getLsbD b)

/-- R42, R43: byte j of a scalar that PUT.W stored, read by GET.8 at the j-th address, is bits 8j+7..8j of the
scalar: the least significant byte is at the lowest address. -/
def Obligations.ScalarsAreLittleEndian : Prop :=
  ∀ (w : Width) (s t : State) (j : Nat), s.cursor.toNat + w.bytes ≤ s.capacity.toNat → j < w.bytes →
    exec (putInstr w) s = .next t →
    ∃ u, exec .get8 (t.withCursor (s.cursor + BitVec.ofNat 64 j)) = .next u ∧
      u.data = (s.data.extractLsb' (8 * j) 8).setWidth 64

/-- R22, R80: PUT.W does not depend on DATA above bit W-1. -/
def Obligations.PutIgnoresDataAboveItsWidth : Prop :=
  ∀ (w : Width) (s t : State) (d : Word), (∀ b, b < w.bits → d.getLsbD b = s.data.getLsbD b) →
    exec (putInstr w) s = .next t → exec (putInstr w) (s.withData d) = .next (t.withData d)

/-- R90, R46: REWIND, from its command word on, sets CURSOR to 0 and RESULT to OK and changes nothing else. -/
def Obligations.RewindOnlyMovesCursorToStart : Prop :=
  decode 0x5 = .ok .rewind ∧ ∀ s : State, ∃ t, exec .rewind s = .next t ∧ t.cursor = 0 ∧
    StatusEnds .ok s.status t.status ∧ t = (s.withCursor 0).withStatus t.status

/-- R140: CLRSTAT, from its command word on, clears the sticky bits and sets RESULT to OK, so that STATUS is 0
when its reserved bits were, and changes nothing else. -/
def Obligations.ClrstatClearsStatus : Prop :=
  decode 0x6 = .ok .clrstat ∧ ∀ s : State, ∃ t, exec .clrstat s = .next t ∧ t = s.withStatus t.status ∧
    statusResult t.status = 0 ∧ stickyCap t.status = false ∧ stickyOor t.status = false ∧
    stickyIll t.status = false ∧
    (∀ b, 2 ≤ b → (b < 8 ∨ 10 < b) → t.status.getLsbD b = s.status.getLsbD b) ∧
    (statusReservedZero s.status = true → t.status = 0)

/-! ### STATUS, over all commands -/

/-- R154, R26: at the end of every command but CLRSTAT, illegal words included, RESULT is one outcome's code,
the outcome's sticky bit is set, and no other bit of STATUS changes; and no host access that issues no command
changes STATUS. -/
def Obligations.StatusIsWrittenOnlyAtCommandEnd : Prop :=
  ∀ (s t : State) (rest : List Input), step s = .next t →
    (∀ c, s.inputs = issueInput c :: rest → decode c ≠ .ok .clrstat →
      ∃ o, StatusEnds o s.status t.status) ∧
    (∀ a, s.inputs = .access a :: rest → (∀ c, a ≠ .write 0 c) → t.status = s.status)

/-- R150, R157: which commands may end how. CAP ends only PUT.W and PACK, OOR only GET.W and UNPACK, ILL no
legal command; REWIND and CLRSTAT always end OK. -/
def Obligations.OutcomesBelongToTheirCommands : Prop :=
  ∀ (i : Instr) (s t : State), i.wellFormed = true → exec i s = .next t →
    (statusResult t.status = 1 → (∃ w, i = putInstr w) ∨ (∃ n, i = .pack n)) ∧
    (statusResult t.status = 2 → (∃ w, i = getInstr w) ∨ (∃ n, i = .unpack n)) ∧
    statusResult t.status ≠ 3 ∧
    (i = .rewind ∨ i = .clrstat → statusResult t.status = 0)

/-- R150, R155: after CAP or OOR, CURSOR holds the address of the scalar that failed. For PUT.W and GET.W that is
the CURSOR the command found; for PACK and UNPACK, that CURSOR advanced by the bytes of the scalars before the failing
one in the command's sequence. The failing scalar does not fit between CURSOR and CAPACITY, and all before it do. -/
def Obligations.CursorHoldsTheFailedAddress : Prop :=
  ∀ (i : Instr) (s t : State), i.wellFormed = true → exec i s = .next t →
    statusResult t.status = 1 ∨ statusResult t.status = 2 →
    ∃ w : Width, t.capacity.toNat < t.cursor.toNat + w.bytes ∧
      (s.cursor.toNat ≤ s.capacity.toNat → t.cursor.toNat ≤ t.capacity.toNat) ∧
      (((i = putInstr w ∨ i = getInstr w) ∧ t.cursor = s.cursor) ∨
        ∃ n j, (i = .pack n ∨ i = .unpack n) ∧ (scalarSeq n.toNat)[j]? = some w ∧
          t.cursor.toNat = s.cursor.toNat + totalBytes ((scalarSeq n.toNat).take j))

/-- R26: no command reads STATUS. With any other STATUS in its place a command does the same, to everything but
STATUS, and ends with the same RESULT: no sticky bit stops it. -/
def Obligations.NoCommandReadsStatus : Prop :=
  ∀ (i : Instr) (s t : State) (st : Word), exec i s = .next t →
    ∃ st', exec i (s.withStatus st) = .next (t.withStatus st') ∧ statusResult st' = statusResult t.status

/-! ### The decomposition -/

/-- R100: the lanes and the remainder of every width, in closed form. -/
def Obligations.LanePeelingClosedForm : Prop :=
  laneSeq 64 = ([.w64], 0) ∧
  ∀ n, n < 64 → laneSeq n =
    ((if n.testBit 5 then [.w32] else []) ++ (if n.testBit 4 then [.w16] else []) ++
      (if n.testBit 3 then [.w8] else []), n % 8) ∧
    totalBits (laneSeq n).1 = n - n % 8

/-- R101: the tiles of every remainder. -/
def Obligations.TileDecompositionTable : Prop :=
  tileSeq 0 = [] ∧ tileSeq 1 = [.w16] ∧ tileSeq 2 = [.w32] ∧ tileSeq 3 = [.w32, .w16] ∧
  tileSeq 4 = [.w64] ∧ tileSeq 5 = [.w64, .w16] ∧ tileSeq 6 = [.w64, .w32] ∧ tileSeq 7 = [.w64, .w32, .w16]

/-- R102, R118, R181: the scalar sequence of width n is sixteen scalars a lane, then the tiles; it takes 2n bytes
and at most 51 scalars. -/
def Obligations.ScalarSequenceLength : Prop :=
  ∀ n, n ≤ 64 → totalBytes (scalarSeq n) = 2 * n ∧
    (scalarSeq n).length = 16 * (laneSeq n).1.length + (tileSeq (laneSeq n).2).length ∧
    (scalarSeq n).length ≤ 51

/-! ### PACK -/

/-- R107, R108, R114: what PACK n does whatever the block holds, masked or not. It ends OK exactly when 2n bytes
remain, with CURSOR advanced by 2n, and CAP otherwise; it writes every byte from the old CURSOR to the new one
and no other; V, DATA and the rest are unchanged. -/
def Obligations.PackWritesFromCursorToCursor : Prop :=
  ∀ (n : BitVec 7) (s : State), n.toNat ≤ 64 → s.cursor.toNat ≤ s.capacity.toNat →
    ∃ t, exec (.pack n) s = .next t ∧
      (s.cursor.toNat + 2 * n.toNat ≤ s.capacity.toNat →
        StatusEnds .ok s.status t.status ∧ t.cursor.toNat = s.cursor.toNat + 2 * n.toNat) ∧
      (s.capacity.toNat < s.cursor.toNat + 2 * n.toNat →
        StatusEnds .capacityExhausted s.status t.status ∧ t.cursor.toNat ≤ s.capacity.toNat) ∧
      (∀ a, a < s.cursor.toNat ∨ t.cursor.toNat ≤ a → t.byte a = s.byte a) ∧
      (∀ a, s.cursor.toNat ≤ a → a < t.cursor.toNat → (t.byte a).isSome = true) ∧
      t.v = s.v ∧ t.data = s.data ∧ SurroundingsKept s t

/-- R103, R104, R105: with 2n bytes remaining, PACK n of a masked block writes exactly the wire format: each lane
scalar and each bit of the tiled remainders at its place, for every n and every start address. -/
def Obligations.PackWritesTheWireFormat : Prop :=
  ∀ (n : BitVec 7) (s : State), n.toNat ≤ 64 → masked n.toNat s.v = true →
    s.cursor.toNat + 2 * n.toNat ≤ s.capacity.toNat →
    ∃ t, exec (.pack n) s = .next t ∧ CarriesStream n.toNat s.v t.store s.cursor.toNat ∧
      (∀ a, s.cursor.toNat ≤ a → a < s.cursor.toNat + 2 * n.toNat → (t.byte a).isSome = true) ∧
      t.cursor.toNat = s.cursor.toNat + 2 * n.toNat ∧ StatusEnds .ok s.status t.status ∧ t.draws = s.draws

/-- R106: a PACK that runs out of capacity leaves exactly the scalars that fit, at their wire positions, CURSOR
after them, and nothing of the scalar that did not fit. -/
def Obligations.FailedPackLeavesThePrefix : Prop :=
  ∀ (n : BitVec 7) (s : State), n.toNat ≤ 64 → s.cursor.toNat ≤ s.capacity.toNat →
    s.capacity.toNat < s.cursor.toNat + 2 * n.toNat →
    ∃ t j, exec (.pack n) s = .next t ∧ j < (scalarSeq n.toNat).length ∧
      t.cursor.toNat = s.cursor.toNat + totalBytes ((scalarSeq n.toNat).take j) ∧
      t.cursor.toNat ≤ s.capacity.toNat ∧
      s.capacity.toNat < s.cursor.toNat + totalBytes ((scalarSeq n.toNat).take (j + 1)) ∧
      StatusEnds .capacityExhausted s.status t.status ∧
      (∀ a, a < s.cursor.toNat ∨ t.cursor.toNat ≤ a → t.byte a = s.byte a) ∧
      (∀ a, s.cursor.toNat ≤ a → a < t.cursor.toNat → (t.byte a).isSome = true) ∧
      (masked n.toNat s.v = true →
        CarriesStream n.toNat s.v (storeBelow t.store t.cursor.toNat) s.cursor.toNat)

/-- R107, and R106 where capacity runs out: for a block that is not masked, each byte PACK n writes, from the old
CURSOR to the new one, is a free value of its own; the outcome and, when all fits, the length are as for a masked block
(the draws are the model's form of "an arbitrary byte", log 3). -/
def Obligations.UnmaskedPackBytesAreFree : Prop :=
  ∀ (n : BitVec 7) (s : State), n.toNat ≤ 64 → masked n.toNat s.v = false → s.cursor.toNat ≤ s.capacity.toNat →
    ∃ t, exec (.pack n) s = .next t ∧ t.draws = s.draws + 2 * n.toNat ∧
      (s.cursor.toNat + 2 * n.toNat ≤ s.capacity.toNat →
        StatusEnds .ok s.status t.status ∧ t.cursor.toNat = s.cursor.toNat + 2 * n.toNat) ∧
      (s.capacity.toNat < s.cursor.toNat + 2 * n.toNat → StatusEnds .capacityExhausted s.status t.status ∧
        t.cursor.toNat ≤ s.capacity.toNat ∧ ∃ j, t.cursor.toNat = s.cursor.toNat + totalBytes ((scalarSeq n.toNat).take j) ∧
          s.capacity.toNat < s.cursor.toNat + totalBytes ((scalarSeq n.toNat).take (j + 1))) ∧
      ∀ k, s.cursor.toNat + k < t.cursor.toNat →
        t.byte (s.cursor.toNat + k) = some (Config.unmaskedByte (s.draws + k))

/-- R116: one byte short. PACK n ends CAP with every scalar but the last written at its wire position and nothing
after them, and UNPACK n of anything shorter than 2n bytes ends OOR with V unchanged. -/
def Obligations.OneByteShortFailsAtTheLastScalar : Prop :=
  ∀ (n : BitVec 7) (s : State), 1 ≤ n.toNat → n.toNat ≤ 64 →
    (s.cursor.toNat + 2 * n.toNat = s.capacity.toNat + 1 → ∃ t, exec (.pack n) s = .next t ∧
      StatusEnds .capacityExhausted s.status t.status ∧
      t.cursor.toNat = s.cursor.toNat + totalBytes (scalarSeq n.toNat).dropLast ∧
      (∀ a, s.cursor.toNat ≤ a → a < t.cursor.toNat → (t.byte a).isSome = true) ∧
      (∀ a, a < s.cursor.toNat ∨ t.cursor.toNat ≤ a → t.byte a = s.byte a) ∧
      (masked n.toNat s.v = true →
        CarriesStream n.toNat s.v (storeBelow t.store t.cursor.toNat) s.cursor.toNat)) ∧
    (s.capacity.toNat < s.cursor.toNat + 2 * n.toNat → ∃ t, exec (.unpack n) s = .next t ∧
      StatusEnds .outOfRange s.status t.status ∧ t.v = s.v)

/-! ### UNPACK -/

/-- R109, R103, R104: with 2n bytes remaining, UNPACK n writes to V the block whose wire format the bytes from
CURSOR on are (every written byte of them), each value below 2^n; CURSOR advances by 2n, the command ends OK,
and nothing else changes. No check is made that the stream was packed at width n (R117). -/
def Obligations.UnpackReadsTheWireFormat : Prop :=
  ∀ (n : BitVec 7) (s : State), n.toNat ≤ 64 → s.cursor.toNat + 2 * n.toNat ≤ s.capacity.toNat →
    ∃ t, exec (.unpack n) s = .next t ∧ CarriesStream n.toNat t.v s.store s.cursor.toNat ∧
      (∀ i : Fin 16, t.v[i].toNat < 2 ^ n.toNat) ∧ t.cursor.toNat = s.cursor.toNat + 2 * n.toNat ∧
      StatusEnds .ok s.status t.status ∧ t.data = s.data ∧ t.store = s.store ∧ SurroundingsKept s t

/-- R50, R109: UNPACK of bytes never written. V becomes the block whose wire format the bytes it saw are, where an
unwritten byte is seen as a free value of its own, the next draw for each such byte in address order; `m` is any
memory that holds the 2n bytes seen (the draw counter is the model's, logs 2 and 5). -/
def Obligations.UnpackReadsUnwrittenBytesAsFreshDraws : Prop :=
  ∀ (n : BitVec 7) (s : State) (m : Memory), n.toNat ≤ 64 → s.cursor.toNat + 2 * n.toNat ≤ s.capacity.toNat →
    (∀ k, k < 2 * n.toNat → m.read (s.cursor.toNat + k) = some (seenByte s.store s.cursor.toNat s.draws k)) →
    ∃ t, exec (.unpack n) s = .next t ∧ CarriesStream n.toNat t.v m s.cursor.toNat ∧
      (∀ i : Fin 16, t.v[i].toNat < 2 ^ n.toNat) ∧
      t.draws = s.draws + unwrittenBefore s.store s.cursor.toNat (2 * n.toNat)

/-- R111: after an UNPACK n that ended OK every value is below 2^n, whatever the stream bytes were. -/
def Obligations.UnpackedValuesAreBelowTwoToTheN : Prop :=
  ∀ (n : BitVec 7) (s t : State), exec (.unpack n) s = .next t → statusResult t.status = 0 →
    ∀ i : Fin 16, t.v[i].toNat < 2 ^ n.toNat

/-- R110: an UNPACK that runs out of bytes ends OOR with CURSOR after the scalars read before the failing one, and
V, STORE and everything else unchanged. -/
def Obligations.FailedUnpackLeavesVUnchanged : Prop :=
  ∀ (n : BitVec 7) (s : State), n.toNat ≤ 64 → s.cursor.toNat ≤ s.capacity.toNat →
    s.capacity.toNat < s.cursor.toNat + 2 * n.toNat →
    ∃ t j, exec (.unpack n) s = .next t ∧ j < (scalarSeq n.toNat).length ∧
      t.cursor.toNat = s.cursor.toNat + totalBytes ((scalarSeq n.toNat).take j) ∧
      t.cursor.toNat ≤ s.capacity.toNat ∧
      s.capacity.toNat < s.cursor.toNat + totalBytes ((scalarSeq n.toNat).take (j + 1)) ∧
      StatusEnds .outOfRange s.status t.status ∧ t.v = s.v ∧ t.data = s.data ∧ t.store = s.store ∧
      SurroundingsKept s t

/-- R112: UNPACK 4 uses the 4-bit rule: it reads one 64-bit scalar x and value i is bits 4i+3..4i of x. -/
def Obligations.WidthFourUsesTheFourBitRule : Prop :=
  laneSeq 4 = ([], 4) ∧ scalarSeq 4 = [.w64] ∧
  ∀ (s : State) (x : Word), s.cursor.toNat + 8 ≤ s.capacity.toNat →
    (∀ j, j < 8 → s.byte (s.cursor.toNat + j) = some (x.extractLsb' (8 * j) 8)) →
    ∃ t, exec (.unpack 4) s = .next t ∧ t.cursor.toNat = s.cursor.toNat + 8 ∧
      statusResult t.status = 0 ∧ ∀ i : Fin 16, t.v[i] = (x.extractLsb' (4 * i.val) 4).setWidth 64

/-- R105, R109: at width 0, PACK writes nothing and UNPACK gives the all-zero block whatever the buffer holds, at
any CURSOR; both end OK. -/
def Obligations.WidthZeroMovesNoByte : Prop :=
  ∀ s : State, (∃ t, exec (.pack 0) s = .next t ∧ StatusEnds .ok s.status t.status ∧
      t.store = s.store ∧ t.cursor = s.cursor ∧ t.v = s.v) ∧
    (∃ t, exec (.unpack 0) s = .next t ∧ StatusEnds .ok s.status t.status ∧
      t = (s.withV (Vector.replicate 16 0)).withStatus t.status)

/-- R115: the round trip. If PACK n of a masked block ends OK at CURSOR = B, then UNPACK n in any state with
CURSOR = B, the same CAPACITY and the stream's bytes still as PACK left them ends OK with the block back in V and
CURSOR = B + 2n; and REWIND brings about such a state when B = 0. -/
def Obligations.UnpackOfPackIsTheBlock : Prop :=
  ∀ (n : BitVec 7) (s t : State), n.toNat ≤ 64 → masked n.toNat s.v = true → exec (.pack n) s = .next t →
    statusResult t.status = 0 →
    (∀ u : State, u.cursor = s.cursor → u.capacity = s.capacity →
      (∀ a, s.cursor.toNat ≤ a → a < s.cursor.toNat + 2 * n.toNat → u.byte a = t.byte a) →
      ∃ r, exec (.unpack n) u = .next r ∧ r.v = s.v ∧ r.cursor.toNat = s.cursor.toNat + 2 * n.toNat ∧
        statusResult r.status = 0) ∧
    (s.cursor = 0 → ∃ u r, exec .rewind t = .next u ∧ exec (.unpack n) u = .next r ∧ r.v = s.v ∧
      r.cursor.toNat = 2 * n.toNat ∧ statusResult r.status = 0)

/-- A width above 64, which no legal word carries, makes PACK and UNPACK end ILL with nothing changed but STATUS
(R69, R141; that `exec` answers so on an ill-formed command is the model's choice, log 12). -/
def Obligations.CodecWidthAboveSixtyFourIsIllegal : Prop :=
  ∀ (n : BitVec 7) (s : State), 64 < n.toNat →
    (∃ t, exec (.pack n) s = .next t ∧ StatusEnds .illegalCommand s.status t.status ∧ t = s.withStatus t.status) ∧
    (∃ t, exec (.unpack n) s = .next t ∧ StatusEnds .illegalCommand s.status t.status ∧ t = s.withStatus t.status)

/-! ### The host port -/

/-- R62, R63 with the map R61: a host write of DATA or V[i] sets that register and nothing else; a write of a
reserved offset, STATUS, CURSOR or CAPACITY changes nothing; a read returns the register's value (0 for CMD and
the reserved offsets) as one response and changes nothing. -/
def Obligations.HostAccessesOfRegisters : Prop :=
  ∀ (s : State) (rest : List Input),
    (∀ x, s.inputs = .access (.write 4 x) :: rest → step s = .next ((s.withInputs rest).withData x)) ∧
    (∀ (i : Fin 16) (x : Word), s.inputs = .access (.write (BitVec.ofNat 5 (16 + i.val)) x) :: rest →
      ∃ t, step s = .next t ∧ t = (s.withInputs rest).withV t.v ∧ t.v[i] = x ∧
        ∀ k : Fin 16, k ≠ i → t.v[k] = s.v[k]) ∧
    (∀ (idx : RegIndex) (x : Word), 1 ≤ idx.toNat → idx.toNat ≤ 15 → idx.toNat ≠ 4 →
      s.inputs = .access (.write idx x) :: rest → step s = .next (s.withInputs rest)) ∧
    (∀ (idx : RegIndex), s.inputs = .access (.read idx) :: rest →
      ∃ y, step s = .next ((s.withInputs rest).respond y) ∧
        (idx = 0 → y = 0) ∧ (idx = 1 → y = s.status) ∧ (idx = 2 → y = s.cursor) ∧ (idx = 3 → y = s.capacity) ∧
        (idx = 4 → y = s.data) ∧ (5 ≤ idx.toNat → idx.toNat ≤ 15 → y = 0) ∧
        (∀ i : Fin 16, idx.toNat = 16 + i.val → y = s.v[i]))

/-- R158, R154: a read of STATUS issued after a CMD write returns the STATUS that command left. -/
def Obligations.StatusReadAfterCommandSeesItsOutcome : Prop :=
  ∀ (s : State) (c : Word) (rest : List Input), s.inputs = issueInput c :: .access (.read 1) :: rest →
    ∃ t u, step s = .next t ∧ step t = .next u ∧ u = (t.withInputs rest).respond t.status ∧
      (∀ i, decode c = .ok i → exec i (s.withInputs (.access (.read 1) :: rest)) = .next t)

/-- R72, R73 with the map R61: `WR` and `RD` of each register access its offset (here divided by 8), `CMD <command>`
writes the command's word to CMD, WRBLK is the sixteen writes of V0 to V15, in order, at offsets 0x80 to 0xF8, a comment
does nothing, and a program is its lines in order. -/
def Obligations.HostLinesExpandAsWritten : Prop :=
  (∀ r idx, (r = .cmd ∧ idx = 0) ∨ (r = .status ∧ idx = 1) ∨ (r = .cursor ∧ idx = 2) ∨ (r = .capacity ∧ idx = 3) ∨
      (r = .data ∧ idx = 4) ∨ (∃ i : Fin 16, r = .v i ∧ idx = BitVec.ofNat 5 (16 + i.val)) →
    (∀ x, (HostLine.wr r x).accesses = [.write idx x]) ∧ (HostLine.rd r).accesses = [.read idx]) ∧
  (∀ i : Instr, (HostLine.cmd i).accesses = [.write 0 (encode i)]) ∧
  (∀ a : Block, (HostLine.wrblk a).accesses.length = 16 ∧
    ∀ i : Fin 16, (HostLine.wrblk a).accesses[i.val]? = some (.write (BitVec.ofNat 5 (16 + i.val)) a[i])) ∧
  (∀ text, (HostLine.comment text).accesses = []) ∧ programInputs [] = [] ∧
  ∀ l ls, programInputs (l :: ls) = l.accesses.map .access ++ programInputs ls

/-! ### Reset -/

/-- R33, R170: hardware reset gives every register its reset value and keeps STORE and CAPACITY; power-on is that
with every STORE byte unwritten; and the machine's reset state is power-on with the build's CAPACITY. -/
def Obligations.ResetValues : Prop :=
  (∀ (s : State) (rest : List Input), s.inputs = .reset :: rest → ∃ t, step s = .next t ∧
    (∀ i : Fin 16, t.v[i] = 0) ∧ t.data = 0 ∧ t.status = 0 ∧ t.cursor = 0 ∧ t.capacity = s.capacity ∧
    t.store = s.store) ∧
  (∀ (s : State) (rest : List Input), s.inputs = .powerOn :: rest → ∃ t, step s = .next t ∧
    (∀ i : Fin 16, t.v[i] = 0) ∧ t.data = 0 ∧ t.status = 0 ∧ t.cursor = 0 ∧ t.capacity = s.capacity ∧
    ∀ a, t.byte a = none) ∧
  ((∀ i : Fin 16, State.reset.v[i] = 0) ∧ State.reset.data = 0 ∧ State.reset.status = 0 ∧
    State.reset.cursor = 0 ∧ State.reset.capacity = Config.capacity ∧ ∀ a, State.reset.byte a = none)

/-- R171: a reset while a host access is outstanding. The registers take their reset values and a read gets no
response; every byte outside those the access's command would have written is unchanged, and each of those holds
its old value or some byte. Those bytes: the W/8 from CURSOR for a PUT.W that fits, the 2n from CURSOR clipped to
CAPACITY for PACK n, none for any other access (that a PUT.W that does not fit has none is read from the rule, log 4). -/
def Obligations.ResetDuringAnAccess : Prop :=
  (∀ (s : State) (a : Access) (rest : List Input), s.inputs = .resetDuring a :: rest → ∃ t, step s = .next t ∧
    (∀ i : Fin 16, t.v[i] = 0) ∧ t.data = 0 ∧ t.status = 0 ∧ t.cursor = 0 ∧ t.capacity = s.capacity ∧
    t.responses = s.responses ∧
    (∀ x, x < s.cursor.toNat ∨ s.cursor.toNat + accessExtent a s ≤ x → t.byte x = s.byte x) ∧
    (∀ x, s.cursor.toNat ≤ x → x < s.cursor.toNat + accessExtent a s →
      t.byte x = s.byte x ∨ (t.byte x).isSome = true)) ∧
  (∀ (s : State) (c : Word) (w : Width), decode c = .ok (putInstr w) →
    s.cursor.toNat + w.bytes ≤ s.capacity.toNat → accessExtent (.write 0 c) s = w.bytes) ∧
  (∀ (s : State) (c : Word) (w : Width), decode c = .ok (putInstr w) →
    s.capacity.toNat < s.cursor.toNat + w.bytes → accessExtent (.write 0 c) s = 0) ∧
  (∀ (s : State) (c : Word) (n : BitVec 7), decode c = .ok (.pack n) →
    accessExtent (.write 0 c) s = min (2 * n.toNat) (s.capacity.toNat - s.cursor.toNat)) ∧
  (∀ (s : State) (c : Word), (∀ w, decode c ≠ .ok (putInstr w)) → (∀ n, decode c ≠ .ok (.pack n)) →
    accessExtent (.write 0 c) s = 0) ∧
  (∀ (s : State) (a : Access), (∀ c, a ≠ .write 0 c) → accessExtent a s = 0)

/-! ### Rules about the whole machine -/

/-- R49: every input other than the issue of a PUT.W or a PACK, a reset during an access, and power-on leaves all
of STORE as it was. -/
def Obligations.OnlyPutAndPackChangeStore : Prop :=
  ∀ (s t : State) (x : Input) (rest : List Input), s.inputs = x :: rest → step s = .next t →
    (∀ c w, decode c = .ok (putInstr w) → x ≠ issueInput c) → (∀ c n, decode c = .ok (.pack n) → x ≠ issueInput c) →
    (∀ a, x ≠ .resetDuring a) → x ≠ .powerOn → t.store = s.store

/-- R20: which commands write which registers. Only UNPACK writes V, only GET.W writes DATA, only REWIND moves
CURSOR down, and no command touches CAPACITY, the pending inputs or the responses. -/
def Obligations.RegistersHaveTheirWriters : Prop :=
  ∀ (i : Instr) (s t : State), exec i s = .next t →
    ((∀ n, i ≠ .unpack n) → t.v = s.v) ∧ ((∀ w, i ≠ getInstr w) → t.data = s.data) ∧
    (i ≠ .rewind → s.cursor.toNat ≤ t.cursor.toNat) ∧
    (i = .clrstat → t.cursor = s.cursor) ∧ SurroundingsKept s t

/-- R44, R48, R171: a command changes no byte of STORE outside the bytes from CURSOR on that it may write. -/
def Obligations.CommandsWriteOnlyTheirExtent : Prop :=
  ∀ (i : Instr) (s t : State), exec i s = .next t →
    ∀ a, a < s.cursor.toNat ∨ s.cursor.toNat + writeExtent i s ≤ a → t.byte a = s.byte a

/-- R34: between two REWINDs or resets CURSOR never decreases, and it never exceeds CAPACITY. -/
def Obligations.CursorIsMonotonicAndBounded : Prop :=
  ∀ (s t : State) (a : Access) (rest : List Input), s.inputs = .access a :: rest →
    s.cursor.toNat ≤ s.capacity.toNat → step s = .next t →
    t.cursor.toNat ≤ t.capacity.toNat ∧
    ((∀ c, decode c = .ok .rewind → a ≠ .write 0 c) → s.cursor.toNat ≤ t.cursor.toNat)

/-- R28, R6: no input, reset and power-on included, changes CAPACITY. -/
def Obligations.CapacityNeverChanges : Prop :=
  ∀ s t : State, step s = .next t → t.capacity = s.capacity

/-- The invariant holds at power-on of a block of any CAPACITY, and so at reset (R33). -/
def Obligations.InvariantHoldsAtReset : Prop :=
  (∀ capacity : Word, (State.powerOn capacity).Inv) ∧ State.reset.Inv

/-- Every step keeps the invariant: CURSOR in 0..CAPACITY (R27, R34), STORE in canonical form with no byte at or
above CAPACITY (R29), the reserved bits of STATUS zero (R24), whatever the input. -/
def Obligations.EveryStepKeepsTheInvariant : Prop :=
  ∀ s t : State, s.Inv → step s = .next t → t.Inv
end

