-- ==== Sys2Proof/Laws/Memory.lean ====
section
/-! SUPPORT. Buffer storage: a read after a write, the canonical form, and the bytes of a scalar. -/

namespace Sys2Proof.Machine

/-! ### One byte -/

@[simp] theorem Memory.read_nil (a : Nat) : Memory.read [] a = none := rfl

/-- A read after a write gives the byte written there, and every other address as before. -/
theorem Memory.read_write (m : Memory) (a x : Nat) (b : Byte) :
    (m.write a b).read x = if x = a then some b else m.read x := by
  induction m with
  | nil => simp [Memory.write, Memory.read]
  | cons c m ih =>
    obtain ⟨y, c⟩ := c
    unfold Memory.write
    by_cases h1 : a < y
    · simp [h1, Memory.read]
    · by_cases h2 : a = y
      · subst h2
        by_cases hx : x = a <;> simp [Memory.read, hx]
      · simp only [h1, h2, if_false, Memory.read, ih]
        by_cases hx : x = y
        · simp [hx, Ne.symm h2]
        · simp [hx]

@[simp] theorem Memory.read_write_self (m : Memory) (a : Nat) (b : Byte) :
    (m.write a b).read a = some b := by simp [Memory.read_write]

theorem Memory.read_write_of_ne (m : Memory) {a x : Nat} (b : Byte) (h : x ≠ a) :
    (m.write a b).read x = m.read x := by simp [Memory.read_write, h]

/-- The cells of a written memory are old ones and the one written. -/
theorem Memory.mem_write {m : Memory} {a : Nat} {b : Byte} {c : Host.Cell} (h : c ∈ m.write a b) :
    c = (a, b) ∨ c ∈ m := by
  induction m with
  | nil => simpa [Memory.write] using h
  | cons d m ih =>
    obtain ⟨y, d⟩ := d
    unfold Memory.write at h
    split at h
    · simpa using h
    · split at h
      · rcases List.mem_cons.mp h with h | h
        · exact .inl h
        · exact .inr (List.mem_cons_of_mem _ h)
      · rcases List.mem_cons.mp h with h | h
        · exact .inr (h ▸ List.mem_cons_self)
        · exact (ih h).imp_right (List.mem_cons_of_mem _)

/-- A write keeps the canonical form. -/
theorem Memory.wf_write {m : Memory} (h : m.wf) (a : Nat) (b : Byte) : (m.write a b).wf := by
  induction m with
  | nil => simp [Memory.write, Memory.wf]
  | cons d m ih =>
    obtain ⟨y, d⟩ := d
    obtain ⟨hy, hm⟩ := List.pairwise_cons.mp h
    unfold Memory.write
    split
    · rename_i hlt
      refine List.pairwise_cons.mpr ⟨fun c hc => ?_, h⟩
      rcases List.mem_cons.mp hc with rfl | hc
      · exact hlt
      · exact Nat.lt_trans hlt (hy c hc)
    · split
      · rename_i heq
        subst heq
        exact List.pairwise_cons.mpr ⟨hy, hm⟩
      · rename_i h1 h2
        refine List.pairwise_cons.mpr ⟨fun c hc => ?_, ih hm⟩
        rcases Memory.mem_write hc with rfl | hc
        · show y < a
          omega
        · exact hy c hc

/-- In canonical form an address is listed exactly when it reads as a written byte. -/
theorem Memory.read_eq_some_of_mem {m : Memory} (h : m.wf) {c : Host.Cell} (hc : c ∈ m) :
    m.read c.1 = some c.2 := by
  induction m with
  | nil => simp at hc
  | cons d m ih =>
    obtain ⟨y, d⟩ := d
    obtain ⟨hy, hm⟩ := List.pairwise_cons.mp h
    rcases List.mem_cons.mp hc with rfl | hc
    · simp [Memory.read]
    · have hlt : y < c.1 := hy c hc
      have hne : c.1 ≠ y := by omega
      simp [Memory.read, hne, ih hm hc]

/-- Only the cells that satisfy `p` are read after filtering by an address predicate. -/
theorem Memory.read_filter (m : Memory) (p : Nat → Bool) (a : Nat) :
    Memory.read (m.filter fun c => p c.1) a = if p a then m.read a else none := by
  induction m with
  | nil => simp
  | cons d m ih =>
    obtain ⟨y, d⟩ := d
    by_cases hp : p y
    · by_cases ha : a = y
      · simp [hp, Memory.read, ha]
      · simp [hp, Memory.read, ha, ih]
    · by_cases ha : a = y
      · subst ha
        simp [hp, ih]
      · simp [hp, Memory.read, ha, ih]

/-! ### Scalars -/

/-- `MemWrite` writes byte `j` of the scalar at address `a + j` and nothing else (R42). -/
theorem memWrite_read (m : Memory) (a k : Nat) (v : Word) (x : Nat) :
    (memWrite m a k v).read x = if a ≤ x ∧ x < a + k then some (byteOf v (x - a)) else m.read x := by
  induction k with
  | zero => simp [memWrite]
  | succ k ih =>
    simp only [memWrite, Memory.read_write, ih]
    by_cases h : x = a + k
    · subst h
      simp
    · by_cases h2 : a ≤ x ∧ x < a + k
      · have : a ≤ x ∧ x < a + (k + 1) := by omega
        simp [h, h2, this]
      · have : ¬(a ≤ x ∧ x < a + (k + 1)) := by omega
        simp only [h, h2, this, if_false]

/-- `MemWrite` keeps the canonical form. -/
theorem memWrite_wf {m : Memory} (h : m.wf) (a k : Nat) (v : Word) : (memWrite m a k v).wf := by
  induction k with
  | zero => exact h
  | succ k ih => exact Memory.wf_write ih _ _

/-- The cells after `MemWrite` are old ones and ones at the addresses written. -/
theorem memWrite_mem {m : Memory} {a k : Nat} {v : Word} {c : Host.Cell} (h : c ∈ memWrite m a k v) :
    (a ≤ c.1 ∧ c.1 < a + k) ∨ c ∈ m := by
  induction k with
  | zero => exact .inr h
  | succ k ih =>
    rcases Memory.mem_write h with rfl | h
    · exact .inl ⟨by simp, by simp⟩
    · exact (ih h).imp_left fun h => ⟨h.1, by omega⟩

/-- Bit `b` of byte `j` of a scalar is its bit `8j + b`. -/
theorem byteOf_getLsbD (v : Word) (j b : Nat) :
    (byteOf v j).getLsbD b = (decide (b < 8) && v.getLsbD (8 * j + b)) := by
  simp [byteOf, BitVec.getLsbD_extractLsb']

/-- Bit `b` of a byte placed at offset `j`. -/
theorem byteAtOffset_getLsbD (x : Byte) (j b : Nat) :
    (byteAtOffset x j).getLsbD b = (decide (b < 64) && decide (8 * j ≤ b) && x.getLsbD (b - 8 * j)) := by
  by_cases h1 : b < 64 <;> by_cases h2 : 8 * j ≤ b <;>
    simp [byteAtOffset, h1, h2, BitVec.getLsbD_shiftLeft, BitVec.getLsbD_setWidth]

/-- The byte a read sees is the written byte, or a draw (R50). -/
theorem byteAt_of_written {m : Memory} {a : Nat} {b : Byte} (h : m.read a = some b) (d : Nat) :
    byteAt m a d = (b, d) := by simp [byteAt, h]

theorem byteAt_of_unwritten {m : Memory} {a : Nat} (h : m.read a = none) (d : Nat) :
    byteAt m a d = (Config.unwrittenByte d, d + 1) := by simp [byteAt, h]

/-- `MemRead` puts at bits `8j+7 : 8j` the byte read at address `a + j`, with the draw number reached
there, and nothing above (R42, R43, R50). -/
theorem memRead_getLsbD (m : Memory) (a k d : Nat) (hk : k ≤ 8) (b : Nat) :
    (memRead m a k d).1.getLsbD b =
      (decide (b < 8 * k) && (byteAt m (a + b / 8) (memRead m a (b / 8) d).2).1.getLsbD (b % 8)) := by
  induction k with
  | zero => simp [memRead]
  | succ k ih =>
    simp only [memRead, BitVec.getLsbD_or, ih (by omega), byteAtOffset_getLsbD]
    by_cases h1 : b < 8 * k
    · have h2 : b < 8 * (k + 1) := by omega
      have h3 : ¬8 * k ≤ b := by omega
      simp [h1, h2, h3]
    · by_cases h2 : b < 8 * (k + 1)
      · have h3 : 8 * k ≤ b := by omega
        have h4 : b < 64 := by omega
        have h5 : b / 8 = k := by omega
        have h6 : b % 8 = b - 8 * k := by omega
        simp [h1, h2, h3, h4, h5, h6]
      · have h3 : 8 * k ≤ b := by omega
        have h7 : 8 ≤ b - 8 * k := by omega
        simp [h1, h2, BitVec.getLsbD_of_ge _ _ h7]

end Sys2Proof.Machine
end

