-- ==== Sys2Proof/Laws/State.lean ====
section
/-! SUPPORT. One lemma per field per update of State, and per field for the shared operations that
only update registers; no later proof unfolds a record update. -/

namespace Sys2Proof.Machine

/-! ### `State.withV` -/

@[simp] theorem State.withV_v (s : State) (x : Block) : (s.withV x).v = x := rfl
@[simp] theorem State.withV_data (s : State) (x : Block) : (s.withV x).data = s.data := rfl
@[simp] theorem State.withV_status (s : State) (x : Block) : (s.withV x).status = s.status := rfl
@[simp] theorem State.withV_cursor (s : State) (x : Block) : (s.withV x).cursor = s.cursor := rfl
@[simp] theorem State.withV_capacity (s : State) (x : Block) : (s.withV x).capacity = s.capacity := rfl
@[simp] theorem State.withV_store (s : State) (x : Block) : (s.withV x).store = s.store := rfl
@[simp] theorem State.withV_inputs (s : State) (x : Block) : (s.withV x).inputs = s.inputs := rfl
@[simp] theorem State.withV_responses (s : State) (x : Block) : (s.withV x).responses = s.responses := rfl
@[simp] theorem State.withV_draws (s : State) (x : Block) : (s.withV x).draws = s.draws := rfl

/-! ### `State.withData` -/

@[simp] theorem State.withData_v (s : State) (x : Word) : (s.withData x).v = s.v := rfl
@[simp] theorem State.withData_data (s : State) (x : Word) : (s.withData x).data = x := rfl
@[simp] theorem State.withData_status (s : State) (x : Word) : (s.withData x).status = s.status := rfl
@[simp] theorem State.withData_cursor (s : State) (x : Word) : (s.withData x).cursor = s.cursor := rfl
@[simp] theorem State.withData_capacity (s : State) (x : Word) : (s.withData x).capacity = s.capacity := rfl
@[simp] theorem State.withData_store (s : State) (x : Word) : (s.withData x).store = s.store := rfl
@[simp] theorem State.withData_inputs (s : State) (x : Word) : (s.withData x).inputs = s.inputs := rfl
@[simp] theorem State.withData_responses (s : State) (x : Word) : (s.withData x).responses = s.responses := rfl
@[simp] theorem State.withData_draws (s : State) (x : Word) : (s.withData x).draws = s.draws := rfl

/-! ### `State.withStatus` -/

@[simp] theorem State.withStatus_v (s : State) (x : Word) : (s.withStatus x).v = s.v := rfl
@[simp] theorem State.withStatus_data (s : State) (x : Word) : (s.withStatus x).data = s.data := rfl
@[simp] theorem State.withStatus_status (s : State) (x : Word) : (s.withStatus x).status = x := rfl
@[simp] theorem State.withStatus_cursor (s : State) (x : Word) : (s.withStatus x).cursor = s.cursor := rfl
@[simp] theorem State.withStatus_capacity (s : State) (x : Word) : (s.withStatus x).capacity = s.capacity := rfl
@[simp] theorem State.withStatus_store (s : State) (x : Word) : (s.withStatus x).store = s.store := rfl
@[simp] theorem State.withStatus_inputs (s : State) (x : Word) : (s.withStatus x).inputs = s.inputs := rfl
@[simp] theorem State.withStatus_responses (s : State) (x : Word) : (s.withStatus x).responses = s.responses := rfl
@[simp] theorem State.withStatus_draws (s : State) (x : Word) : (s.withStatus x).draws = s.draws := rfl

/-! ### `State.withCursor` -/

@[simp] theorem State.withCursor_v (s : State) (x : Word) : (s.withCursor x).v = s.v := rfl
@[simp] theorem State.withCursor_data (s : State) (x : Word) : (s.withCursor x).data = s.data := rfl
@[simp] theorem State.withCursor_status (s : State) (x : Word) : (s.withCursor x).status = s.status := rfl
@[simp] theorem State.withCursor_cursor (s : State) (x : Word) : (s.withCursor x).cursor = x := rfl
@[simp] theorem State.withCursor_capacity (s : State) (x : Word) : (s.withCursor x).capacity = s.capacity := rfl
@[simp] theorem State.withCursor_store (s : State) (x : Word) : (s.withCursor x).store = s.store := rfl
@[simp] theorem State.withCursor_inputs (s : State) (x : Word) : (s.withCursor x).inputs = s.inputs := rfl
@[simp] theorem State.withCursor_responses (s : State) (x : Word) : (s.withCursor x).responses = s.responses := rfl
@[simp] theorem State.withCursor_draws (s : State) (x : Word) : (s.withCursor x).draws = s.draws := rfl

/-! ### `State.withStore` -/

@[simp] theorem State.withStore_v (s : State) (x : Memory) : (s.withStore x).v = s.v := rfl
@[simp] theorem State.withStore_data (s : State) (x : Memory) : (s.withStore x).data = s.data := rfl
@[simp] theorem State.withStore_status (s : State) (x : Memory) : (s.withStore x).status = s.status := rfl
@[simp] theorem State.withStore_cursor (s : State) (x : Memory) : (s.withStore x).cursor = s.cursor := rfl
@[simp] theorem State.withStore_capacity (s : State) (x : Memory) : (s.withStore x).capacity = s.capacity := rfl
@[simp] theorem State.withStore_store (s : State) (x : Memory) : (s.withStore x).store = x := rfl
@[simp] theorem State.withStore_inputs (s : State) (x : Memory) : (s.withStore x).inputs = s.inputs := rfl
@[simp] theorem State.withStore_responses (s : State) (x : Memory) : (s.withStore x).responses = s.responses := rfl
@[simp] theorem State.withStore_draws (s : State) (x : Memory) : (s.withStore x).draws = s.draws := rfl

/-! ### `State.withInputs` -/

@[simp] theorem State.withInputs_v (s : State) (x : List Input) : (s.withInputs x).v = s.v := rfl
@[simp] theorem State.withInputs_data (s : State) (x : List Input) : (s.withInputs x).data = s.data := rfl
@[simp] theorem State.withInputs_status (s : State) (x : List Input) : (s.withInputs x).status = s.status := rfl
@[simp] theorem State.withInputs_cursor (s : State) (x : List Input) : (s.withInputs x).cursor = s.cursor := rfl
@[simp] theorem State.withInputs_capacity (s : State) (x : List Input) : (s.withInputs x).capacity = s.capacity := rfl
@[simp] theorem State.withInputs_store (s : State) (x : List Input) : (s.withInputs x).store = s.store := rfl
@[simp] theorem State.withInputs_inputs (s : State) (x : List Input) : (s.withInputs x).inputs = x := rfl
@[simp] theorem State.withInputs_responses (s : State) (x : List Input) : (s.withInputs x).responses = s.responses := rfl
@[simp] theorem State.withInputs_draws (s : State) (x : List Input) : (s.withInputs x).draws = s.draws := rfl

/-! ### `State.respond` -/

@[simp] theorem State.respond_v (s : State) (x : Word) : (s.respond x).v = s.v := rfl
@[simp] theorem State.respond_data (s : State) (x : Word) : (s.respond x).data = s.data := rfl
@[simp] theorem State.respond_status (s : State) (x : Word) : (s.respond x).status = s.status := rfl
@[simp] theorem State.respond_cursor (s : State) (x : Word) : (s.respond x).cursor = s.cursor := rfl
@[simp] theorem State.respond_capacity (s : State) (x : Word) : (s.respond x).capacity = s.capacity := rfl
@[simp] theorem State.respond_store (s : State) (x : Word) : (s.respond x).store = s.store := rfl
@[simp] theorem State.respond_inputs (s : State) (x : Word) : (s.respond x).inputs = s.inputs := rfl
@[simp] theorem State.respond_responses (s : State) (x : Word) : (s.respond x).responses = s.responses ++ [x] := rfl
@[simp] theorem State.respond_draws (s : State) (x : Word) : (s.respond x).draws = s.draws := rfl

/-! ### `State.withDraws` -/

@[simp] theorem State.withDraws_v (s : State) (x : Nat) : (s.withDraws x).v = s.v := rfl
@[simp] theorem State.withDraws_data (s : State) (x : Nat) : (s.withDraws x).data = s.data := rfl
@[simp] theorem State.withDraws_status (s : State) (x : Nat) : (s.withDraws x).status = s.status := rfl
@[simp] theorem State.withDraws_cursor (s : State) (x : Nat) : (s.withDraws x).cursor = s.cursor := rfl
@[simp] theorem State.withDraws_capacity (s : State) (x : Nat) : (s.withDraws x).capacity = s.capacity := rfl
@[simp] theorem State.withDraws_store (s : State) (x : Nat) : (s.withDraws x).store = s.store := rfl
@[simp] theorem State.withDraws_inputs (s : State) (x : Nat) : (s.withDraws x).inputs = s.inputs := rfl
@[simp] theorem State.withDraws_responses (s : State) (x : Nat) : (s.withDraws x).responses = s.responses := rfl
@[simp] theorem State.withDraws_draws (s : State) (x : Nat) : (s.withDraws x).draws = x := rfl

/-! ### `State.advance` -/

@[simp] theorem State.advance_v (s : State) (w : Width) : (s.advance w).v = s.v := rfl
@[simp] theorem State.advance_data (s : State) (w : Width) : (s.advance w).data = s.data := rfl
@[simp] theorem State.advance_status (s : State) (w : Width) : (s.advance w).status = s.status := rfl
@[simp] theorem State.advance_cursor (s : State) (w : Width) : (s.advance w).cursor = s.cursor + BitVec.ofNat 64 w.bytes := rfl
@[simp] theorem State.advance_capacity (s : State) (w : Width) : (s.advance w).capacity = s.capacity := rfl
@[simp] theorem State.advance_store (s : State) (w : Width) : (s.advance w).store = s.store := rfl
@[simp] theorem State.advance_inputs (s : State) (w : Width) : (s.advance w).inputs = s.inputs := rfl
@[simp] theorem State.advance_responses (s : State) (w : Width) : (s.advance w).responses = s.responses := rfl
@[simp] theorem State.advance_draws (s : State) (w : Width) : (s.advance w).draws = s.draws := rfl

/-! ### `rewind` -/

@[simp] theorem rewind_v (s : State) : (rewind s).v = s.v := rfl
@[simp] theorem rewind_data (s : State) : (rewind s).data = s.data := rfl
@[simp] theorem rewind_status (s : State) : (rewind s).status = s.status := rfl
@[simp] theorem rewind_cursor (s : State) : (rewind s).cursor = 0 := rfl
@[simp] theorem rewind_capacity (s : State) : (rewind s).capacity = s.capacity := rfl
@[simp] theorem rewind_store (s : State) : (rewind s).store = s.store := rfl
@[simp] theorem rewind_inputs (s : State) : (rewind s).inputs = s.inputs := rfl
@[simp] theorem rewind_responses (s : State) : (rewind s).responses = s.responses := rfl
@[simp] theorem rewind_draws (s : State) : (rewind s).draws = s.draws := rfl

/-! ### `endOfCommand` -/

@[simp] theorem endOfCommand_v (o : CommandOutcome) (s : State) : (endOfCommand o s).v = s.v := rfl
@[simp] theorem endOfCommand_data (o : CommandOutcome) (s : State) : (endOfCommand o s).data = s.data := rfl
@[simp] theorem endOfCommand_status (o : CommandOutcome) (s : State) : (endOfCommand o s).status = statusAfter o s.status := rfl
@[simp] theorem endOfCommand_cursor (o : CommandOutcome) (s : State) : (endOfCommand o s).cursor = s.cursor := rfl
@[simp] theorem endOfCommand_capacity (o : CommandOutcome) (s : State) : (endOfCommand o s).capacity = s.capacity := rfl
@[simp] theorem endOfCommand_store (o : CommandOutcome) (s : State) : (endOfCommand o s).store = s.store := rfl
@[simp] theorem endOfCommand_inputs (o : CommandOutcome) (s : State) : (endOfCommand o s).inputs = s.inputs := rfl
@[simp] theorem endOfCommand_responses (o : CommandOutcome) (s : State) : (endOfCommand o s).responses = s.responses := rfl
@[simp] theorem endOfCommand_draws (o : CommandOutcome) (s : State) : (endOfCommand o s).draws = s.draws := rfl

/-! ### `illegalCommand` -/

@[simp] theorem illegalCommand_v (s : State) : (illegalCommand s).v = s.v := rfl
@[simp] theorem illegalCommand_data (s : State) : (illegalCommand s).data = s.data := rfl
@[simp] theorem illegalCommand_status (s : State) : (illegalCommand s).status = statusAfter .illegalCommand s.status := rfl
@[simp] theorem illegalCommand_cursor (s : State) : (illegalCommand s).cursor = s.cursor := rfl
@[simp] theorem illegalCommand_capacity (s : State) : (illegalCommand s).capacity = s.capacity := rfl
@[simp] theorem illegalCommand_store (s : State) : (illegalCommand s).store = s.store := rfl
@[simp] theorem illegalCommand_inputs (s : State) : (illegalCommand s).inputs = s.inputs := rfl
@[simp] theorem illegalCommand_responses (s : State) : (illegalCommand s).responses = s.responses := rfl
@[simp] theorem illegalCommand_draws (s : State) : (illegalCommand s).draws = s.draws := rfl

/-! ### `hardwareReset` -/

@[simp] theorem hardwareReset_v (s : State) : (hardwareReset s).v = Vector.replicate 16 0 := rfl
@[simp] theorem hardwareReset_data (s : State) : (hardwareReset s).data = 0 := rfl
@[simp] theorem hardwareReset_status (s : State) : (hardwareReset s).status = 0 := rfl
@[simp] theorem hardwareReset_cursor (s : State) : (hardwareReset s).cursor = 0 := rfl
@[simp] theorem hardwareReset_capacity (s : State) : (hardwareReset s).capacity = s.capacity := rfl
@[simp] theorem hardwareReset_store (s : State) : (hardwareReset s).store = s.store := rfl
@[simp] theorem hardwareReset_inputs (s : State) : (hardwareReset s).inputs = s.inputs := rfl
@[simp] theorem hardwareReset_responses (s : State) : (hardwareReset s).responses = s.responses := rfl
@[simp] theorem hardwareReset_draws (s : State) : (hardwareReset s).draws = s.draws := rfl

/-! ### `State.powerOn` -/

@[simp] theorem State.powerOn_v (c : Word) : (State.powerOn c).v = Vector.replicate 16 0 := rfl
@[simp] theorem State.powerOn_data (c : Word) : (State.powerOn c).data = 0 := rfl
@[simp] theorem State.powerOn_status (c : Word) : (State.powerOn c).status = 0 := rfl
@[simp] theorem State.powerOn_cursor (c : Word) : (State.powerOn c).cursor = 0 := rfl
@[simp] theorem State.powerOn_capacity (c : Word) : (State.powerOn c).capacity = c := rfl
@[simp] theorem State.powerOn_store (c : Word) : (State.powerOn c).store = [] := rfl
@[simp] theorem State.powerOn_inputs (c : Word) : (State.powerOn c).inputs = [] := rfl
@[simp] theorem State.powerOn_responses (c : Word) : (State.powerOn c).responses = [] := rfl
@[simp] theorem State.powerOn_draws (c : Word) : (State.powerOn c).draws = 0 := rfl

/-! ### Updates that restore -/

@[simp] theorem State.withInputs_withInputs (s : State) (p q : List Input) :
    (s.withInputs p).withInputs q = s.withInputs q := rfl

@[simp] theorem State.withInputs_self (s : State) : s.withInputs s.inputs = s := rfl

@[simp] theorem State.withDraws_self (s : State) : s.withDraws s.draws = s := rfl

end Sys2Proof.Machine
end

