-- ==== Sys2Proof/Laws/Buffer.lean ====
section
/-! SUPPORT. The buffer primitives and sequences of them: for each, one lemma that says everything it
can do. Callers cite these and never unfold `put`, `get`, `putAll` or `getAll`. -/

namespace Sys2Proof.Machine

/-! ### Widths -/

theorem Width.bytes_pos (w : Width) : 0 < w.bytes := by cases w <;> decide

theorem Width.bytes_le (w : Width) : w.bytes ≤ 8 := by cases w <;> decide

theorem Width.bits_eq (w : Width) : w.bits = 8 * w.bytes := by cases w <;> rfl

@[simp] theorem totalBytes_nil : totalBytes [] = 0 := rfl

@[simp] theorem totalBytes_cons (w : Width) (ws : List Width) :
    totalBytes (w :: ws) = w.bytes + totalBytes ws := by simp [totalBytes]

@[simp] theorem totalBytes_append (ws ws' : List Width) :
    totalBytes (ws ++ ws') = totalBytes ws + totalBytes ws' := by simp [totalBytes]

/-! ### One scalar -/

/-- A scalar that fits moves CURSOR by its bytes, without wrapping (R44, R45). -/
theorem advance_cursor {s : State} {w : Width} (h : w.bytes ≤ s.remaining) :
    (s.advance w).cursor.toNat = s.cursor.toNat + w.bytes := by
  have h1 := w.bytes_pos
  have h2 := w.bytes_le
  have h3 := s.capacity.isLt
  unfold State.remaining at h
  simp only [State.advance_cursor, BitVec.toNat_add, BitVec.toNat_ofNat]
  omega

theorem advance_remaining {s : State} {w : Width} (h : w.bytes ≤ s.remaining) :
    (s.advance w).remaining = s.remaining - w.bytes := by
  have h1 := advance_cursor h
  unfold State.remaining at *
  simp only [State.advance_capacity] at *
  omega

/-- `put` either fails for want of room and changes nothing, or writes the scalar and advances (R44). -/
theorem put_cases (w : Width) (v : Word) (s : State) :
    (s.remaining < w.bytes ∧ put w v s = none) ∨
    (w.bytes ≤ s.remaining ∧
      put w v s = some ((s.withStore (memWrite s.store s.cursor.toNat w.bytes v)).advance w)) := by
  by_cases h : s.remaining < w.bytes
  · exact .inl ⟨h, by simp [put, h]⟩
  · exact .inr ⟨by omega, by simp [put, h]⟩

/-- `get` either fails for want of bytes and changes nothing, or reads the scalar and advances (R45). -/
theorem get_cases (w : Width) (s : State) :
    (s.remaining < w.bytes ∧ get w s = none) ∨
    (w.bytes ≤ s.remaining ∧
      get w s = some ((memRead s.store s.cursor.toNat w.bytes s.draws).1,
        (s.withDraws (memRead s.store s.cursor.toNat w.bytes s.draws).2).advance w)) := by
  by_cases h : s.remaining < w.bytes
  · exact .inl ⟨h, by simp [get, h]⟩
  · exact .inr ⟨by omega, by simp [get, h]⟩

/-! ### The bytes a read sees -/

@[simp] theorem unwrittenBefore_zero (m : Memory) (a : Nat) : unwrittenBefore m a 0 = 0 := rfl

theorem unwrittenBefore_add (m : Memory) (a j k : Nat) :
    unwrittenBefore m a (j + k) = unwrittenBefore m a j + unwrittenBefore m (a + j) k := by
  simp only [unwrittenBefore, List.range_add, List.countP_append, List.countP_map]
  congr 2
  funext i
  simp [Nat.add_assoc]

theorem seenByte_of_written {m : Memory} {a j : Nat} {b : Byte} (h : m.read (a + j) = some b) (d : Nat) :
    seenByte m a d j = b := by simp [seenByte, h]

/-- Where one read ends the next goes on: with the draws the first has taken. -/
theorem seenByte_add (m : Memory) (a d j q : Nat) :
    seenByte m (a + j) (d + unwrittenBefore m a j) q = seenByte m a d (j + q) := by
  simp only [seenByte, unwrittenBefore_add, Nat.add_assoc]

/-- `MemRead` draws once for each unwritten byte (R50). -/
theorem memRead_draws (m : Memory) (a k d : Nat) : (memRead m a k d).2 = d + unwrittenBefore m a k := by
  induction k with
  | zero => rfl
  | succ k ih =>
    have h1 : unwrittenBefore m (a + k) 1 = if m.read (a + k) = none then 1 else 0 := by
      simp [unwrittenBefore, List.range_succ, List.countP_cons]
    simp only [memRead, byteAt, ih, unwrittenBefore_add, h1]
    cases m.read (a + k) <;> simp [Nat.add_assoc]

/-- Each byte of `MemRead` is the byte a read sees in its place (R42, R43, R50). -/
theorem byteOf_memRead {m : Memory} {a k j : Nat} (d : Nat) (hk : k ≤ 8) (hj : j < k) :
    byteOf (memRead m a k d).1 j = seenByte m a d j := by
  apply BitVec.eq_of_getLsbD_eq
  intro i hi
  have h1 : 8 * j + i < 8 * k := by omega
  have h2 : (8 * j + i) / 8 = j := by omega
  have h3 : (8 * j + i) % 8 = i := by omega
  rw [byteOf_getLsbD, memRead_getLsbD _ _ _ _ hk, h2, h3, memRead_draws, byteAt, seenByte]
  cases m.read (a + j) <;> simp [hi, h1]

/-- A scalar read has no bit above its width (R45: zero-extended). -/
theorem memRead_high {m : Memory} {a k d b : Nat} (hk : k ≤ 8) (hb : 8 * k ≤ b) :
    (memRead m a k d).1.getLsbD b = false := by
  simp [memRead_getLsbD _ _ _ _ hk, Nat.not_lt.mpr hb]

/-! ### How many scalars of a sequence fit -/

/-- The number of scalars at the head of a sequence that fit in `room` bytes. -/
def fitCount : List Width → Nat → Nat
  | [], _ => 0
  | w :: ws, room => if room < w.bytes then 0 else fitCount ws (room - w.bytes) + 1

theorem fitCount_le_length (ws : List Width) (room : Nat) : fitCount ws room ≤ ws.length := by
  induction ws generalizing room with
  | nil => simp [fitCount]
  | cons w ws ih =>
    unfold fitCount
    split
    · simp
    · simpa using ih _

theorem totalBytes_take_fitCount_le (ws : List Width) (room : Nat) :
    totalBytes (ws.take (fitCount ws room)) ≤ room := by
  induction ws generalizing room with
  | nil => simp [fitCount]
  | cons w ws ih =>
    unfold fitCount
    split
    · simp
    · have := ih (room - w.bytes)
      simp only [List.take_succ_cons, totalBytes_cons]
      omega

theorem room_lt_of_fitCount_lt {ws : List Width} {room : Nat} (h : fitCount ws room < ws.length) :
    room < totalBytes (ws.take (fitCount ws room + 1)) := by
  induction ws generalizing room with
  | nil => simp at h
  | cons w ws ih =>
    unfold fitCount at h ⊢
    split
    · rename_i hlt
      simpa using hlt
    · rename_i hge
      simp only [hge, if_false, List.length_cons, Nat.add_lt_add_iff_right] at h
      have := ih h
      simp only [List.take_succ_cons, totalBytes_cons]
      omega

theorem totalBytes_take_le (ws : List Width) (j : Nat) : totalBytes (ws.take j) ≤ totalBytes ws := by
  conv => rhs; rw [← List.take_append_drop j ws, totalBytes_append]
  omega

/-- All scalars fit exactly when their bytes do. -/
theorem fitCount_eq_length_iff (ws : List Width) (room : Nat) :
    fitCount ws room = ws.length ↔ totalBytes ws ≤ room := by
  constructor
  · intro h
    have := totalBytes_take_fitCount_le ws room
    rwa [h, List.take_length] at this
  · intro h
    by_contra hne
    have hlt : fitCount ws room < ws.length := by
      have := fitCount_le_length ws room
      omega
    have h1 := room_lt_of_fitCount_lt hlt
    have h2 := totalBytes_take_le ws (fitCount ws room + 1)
    omega

/-! ### Sequences of puts -/

/-- The widths of a scalar sequence. -/
def widthsOf (cs : List Scalar) : List Width := cs.map Scalar.width

@[simp] theorem widthsOf_cons (c : Scalar) (cs : List Scalar) : widthsOf (c :: cs) = c.width :: widthsOf cs := rfl

@[simp] theorem widthsOf_append (cs ds : List Scalar) : widthsOf (cs ++ ds) = widthsOf cs ++ widthsOf ds := by
  simp [widthsOf]

@[simp] theorem widthsOf_length (cs : List Scalar) : (widthsOf cs).length = cs.length := by simp [widthsOf]

/-- What a sequence of puts from `s` leaves, when it ends with the flag `ok` in state `t` (R44, R106):
the scalars that fit are stored one after the other from CURSOR on, and nothing else changes. -/
structure PutAllEffect (cs : List Scalar) (s : State) (ok : Bool) (t : State) : Prop where
  ok_iff : ok = decide (fitCount (widthsOf cs) s.remaining = cs.length)
  cursor : t.cursor.toNat =
    s.cursor.toNat + totalBytes ((widthsOf cs).take (fitCount (widthsOf cs) s.remaining))
  stored : ∀ i c, cs[i]? = some c → i < fitCount (widthsOf cs) s.remaining → ∀ q, q < c.width.bytes →
    t.store.read (s.cursor.toNat + totalBytes ((widthsOf cs).take i) + q) = some (byteOf c.value q)
  outside : ∀ x, x < s.cursor.toNat ∨ t.cursor.toNat ≤ x → t.store.read x = s.store.read x
  inside : ∀ x, s.cursor.toNat ≤ x → x < t.cursor.toNat → (t.store.read x).isSome
  frame : t = (s.withStore t.store).withCursor t.cursor
  wf : s.store.wf → t.store.wf
  cells : ∀ c ∈ t.store, c ∈ s.store ∨ (s.cursor.toNat ≤ c.1 ∧ c.1 < t.cursor.toNat)

theorem putAll_effect (cs : List Scalar) (s : State) : PutAllEffect cs s (putAll cs s).1 (putAll cs s).2 := by
  induction cs generalizing s with
  | nil =>
    refine ⟨rfl, by simp [putAll, widthsOf], by simp, by simp [putAll], ?_, rfl, id, fun c hc => .inl hc⟩
    intro x h1 h2
    simp only [putAll] at h2
    omega
  | cons c cs ih =>
    rcases put_cases c.width c.value s with ⟨hlt, hput⟩ | ⟨hge, hput⟩
    · have h0 : fitCount (c.width :: widthsOf cs) s.remaining = 0 := by simp [fitCount, hlt]
      simp only [putAll, hput]
      refine ⟨by simp [h0], by simp [h0], by simp [h0], by simp, ?_, rfl, id, fun c hc => .inl hc⟩
      intro x h1 h2
      omega
    · have hnl : ¬s.remaining < c.width.bytes := by omega
      simp only [putAll, hput]
      generalize hu : (s.withStore (memWrite s.store s.cursor.toNat c.width.bytes c.value)).advance c.width = u
      have hge' : c.width.bytes ≤
          (s.withStore (memWrite s.store s.cursor.toNat c.width.bytes c.value)).remaining := hge
      have ucur : u.cursor.toNat = s.cursor.toNat + c.width.bytes := hu ▸ advance_cursor hge'
      have urem : u.remaining = s.remaining - c.width.bytes := hu ▸ advance_remaining hge'
      have ustore : u.store = memWrite s.store s.cursor.toNat c.width.bytes c.value := hu ▸ rfl
      have h1 : fitCount (widthsOf (c :: cs)) s.remaining = fitCount (widthsOf cs) u.remaining + 1 := by
        simp [fitCount, hnl, urem]
      have e := ih u
      have tge : u.cursor.toNat ≤ (putAll cs u).2.cursor.toNat := by
        rw [e.cursor]
        omega
      refine ⟨?_, ?_, ?_, ?_, ?_, ?_, ?_, ?_⟩
      · rw [e.ok_iff, h1]
        simp
      · rw [e.cursor, h1, ucur]
        simp only [widthsOf_cons, List.take_succ_cons, totalBytes_cons]
        omega
      · intro i d hd hi q hq
        cases i with
        | zero =>
          simp only [List.getElem?_cons_zero, Option.some.injEq] at hd
          subst hd
          rw [e.outside _ (.inl (by simp; omega)), ustore, memWrite_read, if_pos (by simp; omega)]
          simp
        | succ i =>
          simp only [List.getElem?_cons_succ] at hd
          have := e.stored i d hd (by omega) q hq
          rw [← this, ucur]
          congr 1
          simp only [widthsOf_cons, List.take_succ_cons, totalBytes_cons]
          omega
      · intro x hx
        rw [e.outside x (by omega), ustore, memWrite_read, if_neg (by omega)]
      · intro x hx1 hx2
        by_cases hx : u.cursor.toNat ≤ x
        · exact e.inside x hx hx2
        · rw [e.outside x (by omega), ustore, memWrite_read, if_pos (by omega)]
          rfl
      · rw [e.frame, ← hu]
        rfl
      · exact fun h => e.wf (ustore ▸ memWrite_wf h _ _ _)
      · intro d hd
        rcases e.cells d hd with h | ⟨h2, h3⟩
        · rw [ustore] at h
          rcases memWrite_mem h with ⟨h2, h3⟩ | h
          · exact .inr ⟨h2, by omega⟩
          · exact .inl h
        · exact .inr ⟨by omega, h3⟩

/-! ### Sequences of gets -/

/-- What a sequence of gets from `s` gives, when it answers `r` in state `t` (R45, R110): the scalars
that are there are read one after the other from CURSOR on; only CURSOR and the draw counter move. -/
structure GetAllEffect (ws : List Width) (s : State) (r : Option (List Word)) (t : State) : Prop where
  some_iff : r.isSome = decide (fitCount ws s.remaining = ws.length)
  cursor : t.cursor.toNat = s.cursor.toNat + totalBytes (ws.take (fitCount ws s.remaining))
  length : ∀ xs, r = some xs → xs.length = ws.length
  draws : t.draws = s.draws + unwrittenBefore s.store s.cursor.toNat (totalBytes (ws.take (fitCount ws s.remaining)))
  values : ∀ xs, r = some xs → ∀ i w x, ws[i]? = some w → xs[i]? = some x →
    (∀ q, q < w.bytes → byteOf x q = seenByte s.store s.cursor.toNat s.draws (totalBytes (ws.take i) + q)) ∧
    (∀ b, w.bits ≤ b → x.getLsbD b = false)
  frame : t = (s.withDraws t.draws).withCursor t.cursor

theorem getAll_effect (ws : List Width) (s : State) : GetAllEffect ws s (getAll ws s).1 (getAll ws s).2 := by
  induction ws generalizing s with
  | nil =>
    refine ⟨rfl, by simp [getAll], ?_, by simp [getAll], ?_, rfl⟩
    · intro xs h
      simp only [getAll, Option.some.injEq] at h
      simp [← h]
    · intro xs h i w x hw
      simp at hw
  | cons w ws ih =>
    rcases get_cases w s with ⟨hlt, hget⟩ | ⟨hge, hget⟩
    · have h0 : fitCount (w :: ws) s.remaining = 0 := by simp [fitCount, hlt]
      simp only [getAll, hget]
      refine ⟨by simp [h0], by simp [h0], by simp, by simp [h0], by simp, rfl⟩
    · have hnl : ¬s.remaining < w.bytes := by omega
      simp only [getAll, hget]
      generalize hu : (s.withDraws (memRead s.store s.cursor.toNat w.bytes s.draws).2).advance w = u
      have hge' : w.bytes ≤ (s.withDraws (memRead s.store s.cursor.toNat w.bytes s.draws).2).remaining := hge
      have ucur : u.cursor.toNat = s.cursor.toNat + w.bytes := hu ▸ advance_cursor hge'
      have urem : u.remaining = s.remaining - w.bytes := hu ▸ advance_remaining hge'
      have ustore : u.store = s.store := hu ▸ rfl
      have udraws : u.draws = s.draws + unwrittenBefore s.store s.cursor.toNat w.bytes :=
        hu ▸ memRead_draws _ _ _ _
      have h1 : fitCount (w :: ws) s.remaining = fitCount ws u.remaining + 1 := by
        simp [fitCount, hnl, urem]
      have e := ih u
      refine ⟨?_, ?_, ?_, ?_, ?_, ?_⟩
      · rw [Option.isSome_map, e.some_iff, h1]
        simp
      · rw [e.cursor, h1, ucur]
        simp only [List.take_succ_cons, totalBytes_cons]
        omega
      · intro xs h
        obtain ⟨ys, hys, rfl⟩ := Option.map_eq_some_iff.mp h
        simp [e.length ys hys]
      · rw [e.draws, h1, ustore, ucur, udraws, List.take_succ_cons, totalBytes_cons, unwrittenBefore_add,
          Nat.add_assoc]
      · intro xs h i w' x hw hx
        obtain ⟨ys, hys, rfl⟩ := Option.map_eq_some_iff.mp h
        cases i with
        | zero =>
          simp only [List.getElem?_cons_zero, Option.some.injEq] at hw hx
          subst hw hx
          refine ⟨fun q hq => ?_, fun b hb => memRead_high w.bytes_le (by rw [← w.bits_eq]; exact hb)⟩
          simpa using byteOf_memRead s.draws w.bytes_le hq
        | succ i =>
          simp only [List.getElem?_cons_succ] at hw hx
          obtain ⟨hv, hh⟩ := e.values ys hys i w' x hw hx
          refine ⟨fun q hq => ?_, hh⟩
          rw [hv q hq, ustore, ucur, udraws, seenByte_add, List.take_succ_cons, totalBytes_cons, Nat.add_assoc]
      · rw [e.frame, ← hu]
        rfl

end Sys2Proof.Machine
end

