-- ==== Sys2Proof/Laws/Codec.lean ====
section
/-! SUPPORT. The codec's pure part: the decomposition's sums, where each scalar of a sequence lies, the
bits of PACK's scalars and of UNPACK's block. -/

namespace Sys2Proof.Machine

/-! ### Sums -/

@[simp] theorem totalBits_nil : totalBits [] = 0 := rfl

@[simp] theorem totalBits_cons (w : Width) (ws : List Width) :
    totalBits (w :: ws) = w.bits + totalBits ws := by simp [totalBits]

theorem totalBits_eq (ws : List Width) : totalBits ws = 8 * totalBytes ws := by
  induction ws with
  | nil => rfl
  | cons w ws ih => simp [ih, w.bits_eq, Nat.mul_add]

@[simp] theorem totalBytes_replicate (k : Nat) (w : Width) :
    totalBytes (List.replicate k w) = k * w.bytes := by simp [totalBytes]

/-- The lanes and the remainder of `n` add up to `n`, and the tiles to `16r` (R100, R101). -/
theorem laneSeq_sum : ∀ n : Fin 65, totalBits (laneSeq n).1 + (laneSeq n).2 = n.val ∧ (laneSeq n).2 < 8 ∧
    totalBits (tileSeq (laneSeq n).2) = 16 * (laneSeq n).2 := by decide

theorem totalBits_laneSeq {n : Nat} (h : n ≤ 64) : totalBits (laneSeq n).1 + (laneSeq n).2 = n :=
  (laneSeq_sum ⟨n, by omega⟩).1

theorem remainder_lt {n : Nat} (h : n ≤ 64) : (laneSeq n).2 < 8 := (laneSeq_sum ⟨n, by omega⟩).2.1

theorem totalBits_tileSeq {n : Nat} (h : n ≤ 64) :
    totalBits (tileSeq (laneSeq n).2) = 16 * (laneSeq n).2 := (laneSeq_sum ⟨n, by omega⟩).2.2

/-! ### Where the scalars of a sequence lie -/

/-- The scalar widths of the lane sections of a list of lanes. -/
def laneSections (ls : List Width) : List Width := ls.flatMap (List.replicate 16)

@[simp] theorem laneSections_cons (w : Width) (ls : List Width) :
    laneSections (w :: ls) = List.replicate 16 w ++ laneSections ls := by simp [laneSections]

theorem laneSections_length (ls : List Width) : (laneSections ls).length = 16 * ls.length := by
  induction ls with
  | nil => rfl
  | cons w ls ih =>
    simp only [laneSections_cons, List.length_append, List.length_replicate, ih, List.length_cons]
    omega

theorem totalBytes_laneSections (ls : List Width) : totalBytes (laneSections ls) = 2 * totalBits ls := by
  induction ls with
  | nil => rfl
  | cons w ls ih =>
    simp only [laneSections_cons, totalBytes_append, totalBytes_replicate, totalBits_cons, ih, w.bits_eq]
    omega

theorem scalarSeq_eq (n : Nat) : scalarSeq n = laneSections (laneSeq n).1 ++ tileSeq (laneSeq n).2 := rfl

/-- R102: the scalars of width `n` take `2n` bytes. -/
theorem totalBytes_scalarSeq {n : Nat} (h : n ≤ 64) : totalBytes (scalarSeq n) = 2 * n := by
  have h1 := totalBits_laneSeq h
  have h2 := totalBits_tileSeq h
  have h3 := totalBits_eq (tileSeq (laneSeq n).2)
  simp only [scalarSeq_eq, totalBytes_append, totalBytes_laneSections]
  omega

/-- Scalar `16k + i` is the one of lane section `k` for value `i`. -/
theorem laneSections_get (ls : List Width) (k i : Nat) (w : Width) (hk : ls[k]? = some w) (hi : i < 16) :
    (laneSections ls)[16 * k + i]? = some w := by
  induction ls generalizing k with
  | nil => simp at hk
  | cons u ls ih =>
    cases k with
    | zero =>
      simp only [List.getElem?_cons_zero, Option.some.injEq] at hk
      subst hk
      rw [laneSections_cons, List.getElem?_append_left (by rw [List.length_replicate]; omega),
        List.getElem?_replicate, if_pos (by omega)]
    | succ k =>
      simp only [List.getElem?_cons_succ] at hk
      rw [laneSections_cons, List.getElem?_append_right (by simp; omega), List.length_replicate]
      have : 16 * (k + 1) + i - 16 = 16 * k + i := by omega
      rw [this]
      exact ih k hk

/-- The bytes before scalar `i` of lane section `k` (R103): `2 * o_k + i * (L/8)`. -/
theorem laneSections_before (ls : List Width) (k i : Nat) (w : Width) (hk : ls[k]? = some w) (hi : i < 16) :
    totalBytes ((laneSections ls).take (16 * k + i)) = 2 * totalBits (ls.take k) + i * w.bytes := by
  induction ls generalizing k with
  | nil => simp at hk
  | cons u ls ih =>
    cases k with
    | zero =>
      simp only [List.getElem?_cons_zero, Option.some.injEq] at hk
      subst hk
      have h1 : 16 * 0 + i - 16 = 0 := by omega
      rw [laneSections_cons, List.take_append, List.length_replicate, h1, List.take_replicate]
      have h2 : min (16 * 0 + i) 16 = i := by omega
      rw [h2, totalBytes_append, totalBytes_replicate]
      simp
    | succ k =>
      simp only [List.getElem?_cons_succ] at hk
      have h1 : 16 * (k + 1) + i - 16 = 16 * k + i := by omega
      have h2 : min (16 * (k + 1) + i) 16 = 16 := by omega
      rw [laneSections_cons, List.take_append, List.length_replicate, h1, List.take_replicate, h2,
        totalBytes_append, totalBytes_replicate, ih k hk, List.take_succ_cons, totalBits_cons, u.bits_eq]
      omega

/-- The bytes before tile `t` (R103): `2 * (n - r) + p_t / 8`. -/
theorem scalarSeq_before_tile (n t : Nat) :
    totalBytes ((scalarSeq n).take (16 * (laneSeq n).1.length + t)) =
      2 * totalBits (laneSeq n).1 + totalBytes ((tileSeq (laneSeq n).2).take t) := by
  have h1 : 16 * (laneSeq n).1.length + t - 16 * (laneSeq n).1.length = t := by omega
  rw [scalarSeq_eq, List.take_append, laneSections_length, h1, totalBytes_append,
    List.take_of_length_le (by rw [laneSections_length]; omega), totalBytes_laneSections]

/-- The bytes before scalar `i` of lane section `k` in the whole sequence. -/
theorem scalarSeq_before_lane (n k i : Nat) (w : Width) (hk : (laneSeq n).1[k]? = some w) (hi : i < 16) :
    totalBytes ((scalarSeq n).take (16 * k + i)) = 2 * laneOffset n k + i * w.bytes := by
  have hlen : 16 * k + i ≤ (laneSections (laneSeq n).1).length := by
    have := (List.getElem?_eq_some_iff.mp hk).1
    rw [laneSections_length]
    omega
  rw [scalarSeq_eq, List.take_append_of_le_length hlen, laneSections_before _ k i w hk hi]
  rfl

/-- Every bit position below the sum of a list of widths lies in one of them. -/
theorem exists_width_of_lt (ws : List Width) (q : Nat) (h : q < totalBits ws) :
    ∃ t w, ws[t]? = some w ∧ totalBits (ws.take t) ≤ q ∧ q < totalBits (ws.take t) + w.bits := by
  induction ws generalizing q with
  | nil => simp at h
  | cons w ws ih =>
    by_cases hq : q < w.bits
    · exact ⟨0, w, rfl, by simp, by simpa using hq⟩
    · simp only [totalBits_cons] at h
      obtain ⟨t, u, h1, h2, h3⟩ := ih (q - w.bits) (by omega)
      exact ⟨t + 1, u, h1, by simp; omega, by simp; omega⟩

/-! ### The virtual bitstream -/

theorem mask_getLsbD (k b : Nat) (hk : k ≤ 64) : (mask k).getLsbD b = decide (b < k) := by
  simp only [mask, BitVec.getLsbD_ofNat, Nat.testBit_two_pow_sub_one]
  by_cases h : b < k
  · have : b < 64 := by omega
    simp [h, this]
  · simp [h]

theorem foldl_or_getLsbD {α : Type} (l : List α) (f : α → Stream) (z : Stream) (q : Nat) :
    (l.foldl (fun st i => st ||| f i) z).getLsbD q = (z.getLsbD q || l.any fun i => (f i).getLsbD q) := by
  induction l generalizing z with
  | nil => simp
  | cons a l ih => simp [ih, Bool.or_assoc]

/-- R104: stream bit `i*r + b` is bit `b` of the remainder of value `i`. -/
theorem streamOf_getLsbD (r : Nat) (work : Fin 16 → Word) (hr : r < 8) (i : Fin 16) (b : Nat) (hb : b < r) :
    (streamOf r work).getLsbD (i.val * r + b) = (work i).getLsbD b := by
  have hi := i.isLt
  have hq : i.val * r + b < 112 := by
    have : i.val * r ≤ 15 * r := Nat.mul_le_mul_right r (by omega)
    omega
  have key : ∀ k : Fin 16, ((work k &&& mask r).setWidth 112 <<< (k.val * r)).getLsbD (i.val * r + b) =
      (decide (k = i) && (work i).getLsbD b) := by
    intro k
    simp only [BitVec.getLsbD_shiftLeft, BitVec.getLsbD_setWidth, BitVec.getLsbD_and, hq,
      mask_getLsbD _ _ (by omega : r ≤ 64), decide_true, Bool.true_and]
    by_cases hk : k = i
    · subst hk
      have h1 : ¬k.val * r + b < k.val * r := by omega
      have h2 : k.val * r + b - k.val * r = b := by omega
      have h3 : b < 112 := by omega
      simp [h2, h3, hb]
    · rcases Nat.lt_or_gt_of_ne (fun h => hk (Fin.ext h) : k.val ≠ i.val) with hlt | hgt
      · have h1 : (k.val + 1) * r ≤ i.val * r := Nat.mul_le_mul_right r hlt
        have h2 : ¬i.val * r + b - k.val * r < r := by
          rw [Nat.add_mul] at h1
          omega
        simp [hk, h2]
      · have h1 : (i.val + 1) * r ≤ k.val * r := Nat.mul_le_mul_right r hgt
        have h2 : i.val * r + b < k.val * r := by
          rw [Nat.add_mul] at h1
          omega
        simp [hk, h2]
  unfold streamOf
  rw [foldl_or_getLsbD]
  simp only [key]
  rw [Bool.eq_iff_iff]
  simp

theorem streamField_getLsbD (st : Stream) (r : Nat) (i : Fin 16) (b : Nat) (hr : r < 8) :
    (streamField st r i).getLsbD b = (decide (b < r) && st.getLsbD (i.val * r + b)) := by
  simp only [streamField, BitVec.getLsbD_and, BitVec.getLsbD_extractLsb', mask_getLsbD _ _ (by omega : r ≤ 64)]
  by_cases h : b < r
  · have : b < 64 := by omega
    simp [h, this]
  · simp [h]

/-! ### PACK's scalars -/

theorem widthsOf_map_mk {α : Type} (l : List α) (w : Width) (f : α → Word) :
    widthsOf (l.map fun i => ⟨w, f i⟩) = List.replicate l.length w := by
  simp [widthsOf, List.eq_replicate_iff]

theorem widthsOf_laneScalars (ls : List Width) (work : Fin 16 → Word) :
    widthsOf (laneScalars ls work).1 = laneSections ls := by
  induction ls generalizing work with
  | nil => rfl
  | cons w ls ih => simp [laneScalars, widthsOf_map_mk, ih]

theorem widthsOf_tileScalars (st : Stream) (ws : List Width) (p : Nat) : widthsOf (tileScalars st ws p) = ws := by
  induction ws generalizing p with
  | nil => rfl
  | cons w ws ih => simp [tileScalars, ih]

/-- PACK writes the scalar sequence of its width (R102, R105). -/
theorem widthsOf_packScalars (n : Nat) (v : Block) : widthsOf (packScalars n v) = scalarSeq n := by
  simp [packScalars, widthsOf_laneScalars, widthsOf_tileScalars, scalarSeq_eq]

theorem widthsOf_freeScalars (ws : List Width) (d : Nat) : widthsOf (freeScalars ws d) = ws := by
  induction ws generalizing d with
  | nil => rfl
  | cons w ws ih => simp [freeScalars, ih]

/-- Masked or not, PACK writes the scalar sequence of its width (R107). -/
theorem widthsOf_packPlan (n : Nat) (s : State) : widthsOf (packPlan n s).1 = scalarSeq n := by
  unfold packPlan
  split
  · exact widthsOf_packScalars n s.v
  · exact widthsOf_freeScalars _ _

/-- After the lanes the working copy is the block shifted by all of them. -/
theorem laneScalars_work (ls : List Width) (work : Fin 16 → Word) (i : Fin 16) :
    (laneScalars ls work).2 i = work i >>> totalBits ls := by
  induction ls generalizing work with
  | nil => simp [laneScalars]
  | cons w ls ih => simp [laneScalars, ih, BitVec.shiftRight_add]

theorem laneScalars_length (ls : List Width) (work : Fin 16 → Word) :
    (laneScalars ls work).1.length = 16 * ls.length := by
  rw [← widthsOf_length, widthsOf_laneScalars, laneSections_length]

/-- Scalar `16k + i` of the lanes is value `i` shifted right by the lanes before (R103, R105). -/
theorem laneScalars_get (ls : List Width) (work : Fin 16 → Word) (k : Nat) (w : Width) (i : Fin 16)
    (hk : ls[k]? = some w) :
    (laneScalars ls work).1[16 * k + i.val]? = some ⟨w, work i >>> totalBits (ls.take k)⟩ := by
  induction ls generalizing k work with
  | nil => simp at hk
  | cons u ls ih =>
    have hi := i.isLt
    cases k with
    | zero =>
      simp only [List.getElem?_cons_zero, Option.some.injEq] at hk
      subst hk
      simp only [laneScalars]
      rw [List.getElem?_append_left (by simp)]
      simp
    | succ k =>
      simp only [List.getElem?_cons_succ] at hk
      have h1 : 16 * (k + 1) + i.val - 16 = 16 * k + i.val := by omega
      simp only [laneScalars]
      rw [List.getElem?_append_right (by simp; omega), List.length_map, List.length_finRange, h1, ih _ k hk]
      simp [BitVec.shiftRight_add]

theorem tileScalars_get (st : Stream) (ws : List Width) (p t : Nat) (w : Width) (ht : ws[t]? = some w) :
    (tileScalars st ws p)[t]? = some ⟨w, tileWord st (p + totalBits (ws.take t))⟩ := by
  induction ws generalizing p t with
  | nil => simp at ht
  | cons u ws ih =>
    cases t with
    | zero =>
      simp only [List.getElem?_cons_zero, Option.some.injEq] at ht
      subst ht
      simp [tileScalars]
    | succ t =>
      simp only [List.getElem?_cons_succ] at ht
      simp [tileScalars, ih _ t ht, Nat.add_assoc]

theorem packScalars_lane (n : Nat) (v : Block) (k : Nat) (w : Width) (i : Fin 16)
    (hk : (laneSeq n).1[k]? = some w) :
    (packScalars n v)[16 * k + i.val]? = some ⟨w, v[i] >>> laneOffset n k⟩ := by
  have h := laneScalars_get (laneSeq n).1 (fun i => v[i]) k w i hk
  have hlt : 16 * k + i.val < (laneScalars (laneSeq n).1 (fun i => v[i])).1.length :=
    (List.getElem?_eq_some_iff.mp h).1
  simp only [packScalars]
  rw [List.getElem?_append_left hlt, h]
  rfl

theorem packScalars_tile (n : Nat) (v : Block) (t : Nat) (w : Width)
    (ht : (tileSeq (laneSeq n).2)[t]? = some w) :
    (packScalars n v)[16 * (laneSeq n).1.length + t]? =
      some ⟨w, tileWord (streamOf (laneSeq n).2 fun i => v[i] >>> totalBits (laneSeq n).1)
        (totalBits ((tileSeq (laneSeq n).2).take t))⟩ := by
  have hlen := laneScalars_length (laneSeq n).1 (fun i => v[i])
  have h1 : 16 * (laneSeq n).1.length + t - 16 * (laneSeq n).1.length = t := by omega
  have hw : (laneScalars (laneSeq n).1 (fun i => v[i])).2 =
      fun i : Fin 16 => v[i] >>> totalBits (laneSeq n).1 :=
    funext fun i => laneScalars_work _ (fun i => v[i]) i
  simp only [packScalars]
  rw [List.getElem?_append_right (by omega), hlen, h1, hw, tileScalars_get _ _ _ _ _ ht]
  simp

/-- A memory whose written bytes at the places of PACK's scalars are those scalars carries the stream
(R103, R104). -/
theorem carriesStream_of_packScalars {n : Nat} (hn : n ≤ 64) (v : Block) (m : Memory) (B : Nat)
    (h : ∀ i c, (packScalars n v)[i]? = some c → ∀ q b, q < c.width.bytes →
      m.read (B + totalBytes ((scalarSeq n).take i) + q) = some b → b = byteOf c.value q) :
    CarriesStream n v m B := by
  have hsum := totalBits_laneSeq hn
  have hr := remainder_lt hn
  refine ⟨fun k L i j b hk hj hb => ?_, fun i t b ht hb => ?_⟩
  · have := h _ _ (packScalars_lane n v k L i hk) j b hj
      (by rw [scalarSeq_before_lane n k i L hk i.isLt, ← hb]; congr 1; omega)
    rw [this]
    apply BitVec.eq_of_getLsbD_eq
    intro x hx
    simp only [byteOf_getLsbD, hx, BitVec.getLsbD_extractLsb', BitVec.getLsbD_ushiftRight, Nat.add_assoc]
  · generalize hrr : (laneSeq n).2 = r at *
    have hi := i.isLt
    have hlt : i.val * r + t < totalBits (tileSeq r) := by
      have h1 := totalBits_tileSeq hn
      rw [hrr] at h1
      have h2 : i.val * r ≤ 15 * r := Nat.mul_le_mul_right r (by omega)
      omega
    obtain ⟨τ, w, hτ, h1, h2⟩ := exists_width_of_lt _ _ hlt
    have h3 := totalBits_eq ((tileSeq r).take τ)
    have hpt := packScalars_tile n v τ w (by rw [hrr]; exact hτ)
    have hbt := scalarSeq_before_tile n τ
    rw [hrr] at hpt hbt
    have h4 := w.bits_eq
    have h5 := w.bytes_le
    have := h _ _ hpt ((i.val * r + t) / 8 - totalBytes ((tileSeq r).take τ)) b (by simp only; omega)
      (by rw [hbt, ← hb]; congr 1; omega)
    rw [this]
    have e1 : 8 * ((i.val * r + t) / 8 - totalBytes ((tileSeq r).take τ)) + (i.val * r + t) % 8 =
        i.val * r + t - totalBits ((tileSeq r).take τ) := by omega
    have e2 : totalBits ((tileSeq r).take τ) + (i.val * r + t - totalBits ((tileSeq r).take τ)) =
        i.val * r + t := by omega
    have e3 : (i.val * r + t) % 8 < 8 := Nat.mod_lt _ (by decide)
    have e4 : i.val * r + t - totalBits ((tileSeq r).take τ) < 64 := by omega
    have e5 : totalBits (laneSeq n).1 = n - r := by omega
    simp only [byteOf_getLsbD, e1, e3, decide_true, Bool.true_and, tileWord, BitVec.getLsbD_extractLsb', e4,
      e2, streamOf_getLsbD r _ hr i t ht, BitVec.getLsbD_ushiftRight, e5]

/-! ### UNPACK's block -/

/-- The effect of the lane reads on the output values, bit by bit (R109). -/
theorem assembleLanes_effect (ls : List Width) (off : Nat) (xs : List Word) (out : Fin 16 → Word)
    (hx : ∀ k w (i : Fin 16), ls[k]? = some w → ∀ b, w.bits ≤ b → (xs.getD (16 * k + i.val) 0).getLsbD b = false)
    (i : Fin 16) :
    (∀ b, b < off ∨ off + totalBits ls ≤ b → ((assembleLanes ls off xs out).1 i).getLsbD b = (out i).getLsbD b) ∧
    (∀ k w b, ls[k]? = some w → b < w.bits → off + totalBits (ls.take k) + b < 64 →
      ((assembleLanes ls off xs out).1 i).getLsbD (off + totalBits (ls.take k) + b) =
        ((out i).getLsbD (off + totalBits (ls.take k) + b) || (xs.getD (16 * k + i.val) 0).getLsbD b)) ∧
    (assembleLanes ls off xs out).2 = xs.drop (16 * ls.length) := by
  induction ls generalizing off xs out with
  | nil => simp [assembleLanes]
  | cons u ls ih =>
    have hdrop : ∀ k (i : Fin 16), (xs.drop 16).getD (16 * k + i.val) 0 =
        xs.getD (16 * (k + 1) + i.val) 0 := by
      intro k i
      simp only [List.getD_eq_getElem?_getD, List.getElem?_drop]
      congr 2
      omega
    have hfirst : ∀ b, u.bits ≤ b → (xs.getD i.val 0).getLsbD b = false := by
      intro b hb
      simpa using hx 0 u i rfl b hb
    obtain ⟨h1, h2, h3⟩ := ih (off + u.bits) (xs.drop 16) (fun i => out i ||| (xs.getD i.val 0 <<< off))
      (fun k w i hk b hb => by rw [hdrop]; exact hx (k + 1) w i hk b hb)
    simp only [assembleLanes, totalBits_cons]
    refine ⟨fun b hb => ?_, fun k w b hk hb hlt => ?_, ?_⟩
    · rw [h1 b (by omega), BitVec.getLsbD_or, BitVec.getLsbD_shiftLeft]
      rcases hb with hb | hb
      · simp [hb]
      · rw [hfirst (b - off) (by omega)]
        simp
    · cases k with
      | zero =>
        simp only [List.getElem?_cons_zero, Option.some.injEq] at hk
        subst hk
        simp only [List.take_zero, totalBits_nil, Nat.add_zero] at hlt ⊢
        rw [h1 _ (by omega), BitVec.getLsbD_or, BitVec.getLsbD_shiftLeft]
        have e1 : ¬off + b < off := by omega
        have e2 : off + b - off = b := by omega
        simp [hlt, e2]
      | succ k =>
        simp only [List.getElem?_cons_succ] at hk
        simp only [List.take_succ_cons, totalBits_cons] at hlt ⊢
        have e : off + (u.bits + totalBits (ls.take k)) + b = off + u.bits + totalBits (ls.take k) + b := by omega
        rw [e] at hlt ⊢
        rw [h2 k w b hk hb hlt, hdrop, BitVec.getLsbD_or, BitVec.getLsbD_shiftLeft,
          hfirst (off + u.bits + totalBits (ls.take k) + b - off) (by omega)]
        simp
    · rw [h3, List.drop_drop, List.length_cons]
      congr 1
      omega

/-- The bits of the reassembled stream: word `t` at stream bit `p_t` (R109). -/
theorem assembleStream_effect (ws : List Width) (p : Nat) (xs : List Word)
    (hx : ∀ t w, ws[t]? = some w → ∀ b, w.bits ≤ b → (xs.getD t 0).getLsbD b = false) :
    (∀ q, q < p ∨ p + totalBits ws ≤ q → (assembleStream ws p xs).getLsbD q = false) ∧
    (∀ t w b, ws[t]? = some w → b < w.bits → p + totalBits (ws.take t) + b < 112 →
      (assembleStream ws p xs).getLsbD (p + totalBits (ws.take t) + b) = (xs.getD t 0).getLsbD b) := by
  induction ws generalizing p xs with
  | nil => simp [assembleStream]
  | cons u ws ih =>
    cases xs with
    | nil => simp [assembleStream]
    | cons x xs =>
      obtain ⟨h1, h2⟩ := ih (p + u.bits) xs (fun t w ht b hb => by simpa using hx (t + 1) w ht b hb)
      have hfirst : ∀ b, u.bits ≤ b → x.getLsbD b = false := by
        intro b hb
        simpa using hx 0 u rfl b hb
      simp only [assembleStream, totalBits_cons]
      refine ⟨fun q hq => ?_, fun t w b ht hb hlt => ?_⟩
      · rw [BitVec.getLsbD_or, h1 q (by omega), BitVec.getLsbD_shiftLeft, BitVec.getLsbD_setWidth]
        rcases hq with hq | hq
        · simp [hq]
        · simp [hfirst (q - p) (by omega)]
      · cases t with
        | zero =>
          simp only [List.getElem?_cons_zero, Option.some.injEq] at ht
          subst ht
          simp only [List.take_zero, totalBits_nil, Nat.add_zero] at hlt ⊢
          rw [BitVec.getLsbD_or, h1 _ (by omega), BitVec.getLsbD_shiftLeft, BitVec.getLsbD_setWidth]
          have e2 : p + b - p = b := by omega
          have e3 : b < 112 := by omega
          simp [hlt, e2, e3]
        | succ t =>
          simp only [List.getElem?_cons_succ] at ht
          simp only [List.take_succ_cons, totalBits_cons] at hlt ⊢
          have e : p + (u.bits + totalBits (ws.take t)) + b = p + u.bits + totalBits (ws.take t) + b := by omega
          rw [e] at hlt ⊢
          rw [BitVec.getLsbD_or, h2 t w b ht hb hlt, BitVec.getLsbD_shiftLeft, BitVec.getLsbD_setWidth,
            hfirst (p + u.bits + totalBits (ws.take t) + b - p) (by omega)]
          simp

/-- The bits of the block UNPACK assembles from scalars of the right widths (R109): those of lane section
`k` come from scalar `16k + i`, those of the remainder from the tiles, and nothing lies above bit `n`. -/
theorem assemble_effect {n : Nat} (hn : n ≤ 64) (xs : List Word)
    (hx : ∀ k w, (scalarSeq n)[k]? = some w → ∀ b, w.bits ≤ b → (xs.getD k 0).getLsbD b = false) (i : Fin 16) :
    (∀ k w b, (laneSeq n).1[k]? = some w → b < w.bits →
      (assemble n xs)[i].getLsbD (laneOffset n k + b) = (xs.getD (16 * k + i.val) 0).getLsbD b) ∧
    (∀ t τ w b, t < (laneSeq n).2 → (tileSeq (laneSeq n).2)[τ]? = some w → b < w.bits →
      i.val * (laneSeq n).2 + t = totalBits ((tileSeq (laneSeq n).2).take τ) + b →
      (assemble n xs)[i].getLsbD (n - (laneSeq n).2 + t) =
        (xs.getD (16 * (laneSeq n).1.length + τ) 0).getLsbD b) ∧
    (∀ b, n ≤ b → (assemble n xs)[i].getLsbD b = false) := by
  have hsum := totalBits_laneSeq hn
  have hr := remainder_lt hn
  have htiles := totalBits_tileSeq hn
  have hlen := laneSections_length (laneSeq n).1
  obtain ⟨h1, h2, h3⟩ := assembleLanes_effect (laneSeq n).1 0 xs (fun _ => 0) (fun k w i hk b hb =>
    hx _ w (by
      rw [scalarSeq_eq, List.getElem?_append_left]
      · exact laneSections_get _ k i w hk i.isLt
      · exact (List.getElem?_eq_some_iff.mp (laneSections_get _ k i w hk i.isLt)).1) b hb) i
  obtain ⟨-, s2⟩ := assembleStream_effect (tileSeq (laneSeq n).2) 0 (xs.drop (16 * (laneSeq n).1.length))
    (fun t w ht b hb => by
      have := hx (16 * (laneSeq n).1.length + t) w (by
        rw [scalarSeq_eq, List.getElem?_append_right (by omega), hlen]
        rw [show 16 * (laneSeq n).1.length + t - 16 * (laneSeq n).1.length = t by omega]
        exact ht) b hb
      simpa [List.getD_eq_getElem?_getD, List.getElem?_drop] using this)
  have hv : ∀ b, (assemble n xs)[i].getLsbD b =
      (((assembleLanes (laneSeq n).1 0 xs fun _ => 0).1 i).getLsbD b ||
        (decide (b < 64) && (!decide (b < n - (laneSeq n).2) &&
          (decide (b - (n - (laneSeq n).2) < (laneSeq n).2) &&
            (assembleStream (tileSeq (laneSeq n).2) 0 (xs.drop (16 * (laneSeq n).1.length))).getLsbD
              (i.val * (laneSeq n).2 + (b - (n - (laneSeq n).2))))))) := by
    intro b
    simp only [assemble, Fin.getElem_fin, Vector.getElem_ofFn, BitVec.getLsbD_or, BitVec.getLsbD_shiftLeft,
      streamField_getLsbD _ _ _ _ hr, h3, Bool.and_assoc]
  refine ⟨fun k w b hk hb => ?_, fun t τ w b ht hτ hb hq => ?_, fun b hb => ?_⟩
  · have hle : totalBits ((laneSeq n).1.take k) + w.bits ≤ totalBits (laneSeq n).1 := by
      have h := congrArg totalBytes (List.take_append_drop (k + 1) (laneSeq n).1)
      have h' : (laneSeq n).1.take (k + 1) = (laneSeq n).1.take k ++ [w] := by
        rw [List.take_add_one, hk]
        rfl
      rw [totalBytes_append, h', totalBytes_append] at h
      have e1 := totalBits_eq (laneSeq n).1
      have e2 := totalBits_eq ((laneSeq n).1.take k)
      have e3 := w.bits_eq
      simp only [totalBytes_cons, totalBytes_nil] at h
      omega
    have h := h2 k w b hk hb (by omega)
    rw [Nat.zero_add] at h
    rw [hv, laneOffset, h]
    have e1 : totalBits ((laneSeq n).1.take k) + b < n - (laneSeq n).2 := by omega
    simp [e1]
  · have e0 : (n - (laneSeq n).2 + t) < 64 := by omega
    have e1 : n - (laneSeq n).2 + t - (n - (laneSeq n).2) = t := by omega
    have hq' : i.val * (laneSeq n).2 + t < 112 := by
      have hi := i.isLt
      have : i.val * (laneSeq n).2 ≤ 15 * (laneSeq n).2 :=
        Nat.mul_le_mul_right _ (by omega)
      omega
    have h := s2 τ w b hτ hb (by omega)
    rw [Nat.zero_add, ← hq] at h
    rw [hv, h1 _ (.inr (by omega)), e1, h]
    simp [e0, ht, List.getD_eq_getElem?_getD, List.getElem?_drop]
  · have e1 : ¬b - (n - (laneSeq n).2) < (laneSeq n).2 := by omega
    rw [hv, h1 _ (.inr (by omega))]
    simp [e1]

/-- The block UNPACK assembles is the one whose stream the memory carries (R103, R109). -/
theorem carriesStream_of_reads {n : Nat} (hn : n ≤ 64) (xs : List Word) (m : Memory) (B : Nat)
    (hlen : xs.length = (scalarSeq n).length)
    (h : ∀ i w x, (scalarSeq n)[i]? = some w → xs[i]? = some x →
      (∀ q b, q < w.bytes → m.read (B + totalBytes ((scalarSeq n).take i) + q) = some b → byteOf x q = b) ∧
      (∀ b, w.bits ≤ b → x.getLsbD b = false)) :
    CarriesStream n (assemble n xs) m B := by
  have hsum := totalBits_laneSeq hn
  have hget : ∀ k w, (scalarSeq n)[k]? = some w → xs[k]? = some (xs.getD k 0) := by
    intro k w hk
    have := (List.getElem?_eq_some_iff.mp hk).1
    rw [List.getD_eq_getElem?_getD, List.getElem?_eq_getElem (by omega)]
    rfl
  have hx : ∀ k w, (scalarSeq n)[k]? = some w → ∀ b, w.bits ≤ b → (xs.getD k 0).getLsbD b = false :=
    fun k w hk => (h k w _ hk (hget k w hk)).2
  refine ⟨fun k L i j b hk hj hb => ?_, fun i t b ht hb => ?_⟩
  · obtain ⟨h1, -, -⟩ := assemble_effect hn xs hx i
    have hs : (scalarSeq n)[16 * k + i.val]? = some L := by
      rw [scalarSeq_eq, List.getElem?_append_left]
      · exact laneSections_get _ k i L hk i.isLt
      · exact (List.getElem?_eq_some_iff.mp (laneSections_get _ k i L hk i.isLt)).1
    have hq := (h _ L _ hs (hget _ L hs)).1 j b hj
      (by rw [scalarSeq_before_lane n k i L hk i.isLt, ← hb]; congr 1; omega)
    rw [← hq]
    apply BitVec.eq_of_getLsbD_eq
    intro x hx'
    have e := L.bits_eq
    have := h1 k L (8 * j + x) hk (by omega)
    rw [byteOf_getLsbD, BitVec.getLsbD_extractLsb', ← this]
    simp [Nat.add_assoc]
  · obtain ⟨-, h2, -⟩ := assemble_effect hn xs hx i
    have hlt : i.val * (laneSeq n).2 + t < totalBits (tileSeq (laneSeq n).2) := by
      have hi := i.isLt
      have h1 := totalBits_tileSeq hn
      have h2 : i.val * (laneSeq n).2 ≤ 15 * (laneSeq n).2 :=
        Nat.mul_le_mul_right _ (by omega)
      omega
    obtain ⟨τ, w, hτ, l1, l2⟩ := exists_width_of_lt _ _ hlt
    have e1 := totalBits_eq ((tileSeq (laneSeq n).2).take τ)
    have e2 := w.bits_eq
    have hs : (scalarSeq n)[16 * (laneSeq n).1.length + τ]? = some w := by
      rw [scalarSeq_eq, List.getElem?_append_right (by rw [laneSections_length]; omega), laneSections_length,
        show 16 * (laneSeq n).1.length + τ - 16 * (laneSeq n).1.length = τ by omega]
      exact hτ
    have hq := (h _ w _ hs (hget _ w hs)).1
      ((i.val * (laneSeq n).2 + t) / 8 - totalBytes ((tileSeq (laneSeq n).2).take τ)) b (by omega)
      (by rw [scalarSeq_before_tile, ← hb]; congr 1; omega)
    rw [h2 t τ w (i.val * (laneSeq n).2 + t - totalBits ((tileSeq (laneSeq n).2).take τ)) ht hτ (by omega)
      (by omega), ← hq, byteOf_getLsbD]
    have e3 : (i.val * (laneSeq n).2 + t) % 8 < 8 := Nat.mod_lt _ (by decide)
    have e4 : 8 * ((i.val * (laneSeq n).2 + t) / 8 - totalBytes ((tileSeq (laneSeq n).2).take τ)) +
        (i.val * (laneSeq n).2 + t) % 8 =
        i.val * (laneSeq n).2 + t - totalBits ((tileSeq (laneSeq n).2).take τ) := by omega
    simp [e3, e4]

/-! ### One stream, one block -/

theorem masked_iff (n : Nat) (v : Block) : masked n v = true ↔ ∀ i : Fin 16, v[i].toNat < 2 ^ n := by
  simp [masked]

theorem getLsbD_of_toNat_lt {x : Word} {n b : Nat} (h : x.toNat < 2 ^ n) (hb : n ≤ b) : x.getLsbD b = false := by
  rw [BitVec.getLsbD, Nat.testBit_eq_false_of_lt]
  exact Nat.lt_of_lt_of_le h (Nat.pow_le_pow_right (by decide) hb)

theorem toNat_lt_of_getLsbD {x : Word} {n : Nat} (h : ∀ b, n ≤ b → x.getLsbD b = false) : x.toNat < 2 ^ n :=
  Nat.lt_pow_two_of_testBit _ fun b hb => h b hb

/-- A fully written stream is carried by at most one masked block. -/
theorem CarriesStream_unique {n : Nat} (hn : n ≤ 64) {v v' : Block} {m : Memory} {B : Nat}
    (hm : ∀ x, B ≤ x → x < B + 2 * n → (m.read x).isSome) (h : CarriesStream n v m B) (h' : CarriesStream n v' m B)
    (hv : ∀ i : Fin 16, v[i].toNat < 2 ^ n) (hv' : ∀ i : Fin 16, v'[i].toNat < 2 ^ n) : v = v' := by
  have hsum := totalBits_laneSeq hn
  have hr := remainder_lt hn
  apply Vector.ext
  intro i hi
  apply BitVec.eq_of_getLsbD_eq
  intro b _
  by_cases hb : n ≤ b
  · exact (getLsbD_of_toNat_lt (hv ⟨i, hi⟩) hb).trans (getLsbD_of_toNat_lt (hv' ⟨i, hi⟩) hb).symm
  · by_cases hl : b < totalBits (laneSeq n).1
    · obtain ⟨k, L, hk, h1, h2⟩ := exists_width_of_lt _ _ hl
      have e := L.bits_eq
      have hbefore := scalarSeq_before_lane n k i L hk hi
      have htot := totalBytes_scalarSeq hn
      have hin : B + 2 * laneOffset n k + i * L.bytes + (b - laneOffset n k) / 8 < B + 2 * n := by
        have hlen : (laneSections (laneSeq n).1)[16 * k + i]? = some L := laneSections_get _ k i L hk hi
        have hlt := (List.getElem?_eq_some_iff.mp hlen).1
        have ht : (scalarSeq n).take (16 * k + i + 1) = (scalarSeq n).take (16 * k + i) ++ [L] := by
          rw [List.take_add_one, scalarSeq_eq, List.getElem?_append_left hlt, hlen]
          rfl
        have hle := totalBytes_take_le (scalarSeq n) (16 * k + i + 1)
        rw [ht, totalBytes_append, hbefore, htot] at hle
        simp only [totalBytes_cons, totalBytes_nil] at hle
        simp only [laneOffset] at *
        omega
      obtain ⟨y, hy⟩ := Option.isSome_iff_exists.mp (hm _ (by omega) hin)
      have hj : (b - laneOffset n k) / 8 < L.bytes := by
        simp only [laneOffset]
        omega
      have a1 := h.1 k L ⟨i, hi⟩ _ y hk hj hy
      have a2 := h'.1 k L ⟨i, hi⟩ _ y hk hj hy
      have a3 := congrArg (fun z => BitVec.getLsbD z ((b - laneOffset n k) % 8)) (a1.symm.trans a2)
      have e3 : (b - laneOffset n k) % 8 < 8 := Nat.mod_lt _ (by decide)
      have e4 : laneOffset n k + 8 * ((b - laneOffset n k) / 8) + (b - laneOffset n k) % 8 = b := by
        simp only [laneOffset] at *
        omega
      simpa [BitVec.getLsbD_extractLsb', e3, e4] using a3
    · have ht : b - totalBits (laneSeq n).1 < (laneSeq n).2 := by omega
      have hin : B + 2 * (n - (laneSeq n).2) + (i * (laneSeq n).2 + (b - totalBits (laneSeq n).1)) / 8 <
          B + 2 * n := by
        have h2 : i * (laneSeq n).2 ≤ 15 * (laneSeq n).2 :=
          Nat.mul_le_mul_right _ (by omega)
        omega
      obtain ⟨y, hy⟩ := Option.isSome_iff_exists.mp (hm _ (by omega) hin)
      have a1 := h.2 ⟨i, hi⟩ _ y ht hy
      have a2 := h'.2 ⟨i, hi⟩ _ y ht hy
      have e : n - (laneSeq n).2 + (b - totalBits (laneSeq n).1) = b := by omega
      rw [e] at a1 a2
      exact a1.symm.trans a2

end Sys2Proof.Machine
end

