-- ==== Sys2Proof/Laws/Flags.lean ====
section
/-! SUPPORT. STATUS bit by bit after the end of a command (R154) and after CLRSTAT's clearing (R140). -/

namespace Sys2Proof.Machine

/-- The bits of the constants STATUS is updated with. -/
theorem status_constants : ∀ b : Fin 64,
    (3 : Word).getLsbD b.val = decide (b.val < 2) ∧
    (0x700 : Word).getLsbD b.val = decide (8 ≤ b.val ∧ b.val ≤ 10) ∧
    statusFieldMask.getLsbD b.val = decide (b.val < 2 ∨ (8 ≤ b.val ∧ b.val ≤ 10)) ∧
    (0x100 : Word).getLsbD b.val = decide (b.val = 8) ∧
    (0x200 : Word).getLsbD b.val = decide (b.val = 9) ∧
    (0x400 : Word).getLsbD b.val = decide (b.val = 10) := by decide

/-- Which bit an outcome's sticky word has set (R154). -/
theorem stickyBitOf_getLsbD (o : CommandOutcome) (b : Nat) : (stickyBitOf o).getLsbD b =
    decide ((o = .capacityExhausted ∧ b = 8) ∨ (o = .outOfRange ∧ b = 9) ∨ (o = .illegalCommand ∧ b = 10)) := by
  by_cases hb : b < 64
  · obtain ⟨-, -, -, h8, h9, h10⟩ := status_constants ⟨b, hb⟩
    cases o
    · exact BitVec.getLsbD_zero
    · exact h8.trans (by simp)
    · exact h9.trans (by simp)
    · exact h10.trans (by simp)
  · have h1 : b ≠ 8 := by omega
    have h2 : b ≠ 9 := by omega
    have h3 : b ≠ 10 := by omega
    rw [BitVec.getLsbD_of_ge (stickyBitOf o) b (by omega)]
    simp [h1, h2, h3]

/-- STATUS after a command, bit by bit (R154): RESULT is the code, the outcome's sticky bit is set, and
no other bit changes. -/
theorem statusAfter_getLsbD (o : CommandOutcome) (st : Word) (b : Nat) : (statusAfter o st).getLsbD b =
    if b < 2 then o.code.getLsbD b else (st.getLsbD b || (stickyBitOf o).getLsbD b) := by
  by_cases hb : b < 64
  · obtain ⟨h3, -⟩ := status_constants ⟨b, hb⟩
    simp only [statusAfter, setResult, BitVec.getLsbD_or, BitVec.getLsbD_and, BitVec.getLsbD_not,
      BitVec.getLsbD_setWidth, hb, decide_true, Bool.true_and, h3]
    by_cases h2 : b < 2
    · have h8 : b ≠ 8 := by omega
      have h9 : b ≠ 9 := by omega
      have h10 : b ≠ 10 := by omega
      simp only [h2, stickyBitOf_getLsbD, h8, h9, h10, and_false, or_false, decide_true, decide_false,
        Bool.not_true, Bool.and_false, Bool.false_or, Bool.or_false, if_true]
    · simp only [h2, BitVec.getLsbD_of_ge o.code b (by omega), decide_false, Bool.not_false, Bool.and_true,
        Bool.or_false, if_false]
  · rw [if_neg (by omega), BitVec.getLsbD_of_ge (statusAfter o st) b (by omega),
      BitVec.getLsbD_of_ge st b (by omega), BitVec.getLsbD_of_ge (stickyBitOf o) b (by omega)]
    rfl

/-- RESULT after a command is the outcome's code (R154). -/
@[simp] theorem statusResult_statusAfter (o : CommandOutcome) (st : Word) :
    statusResult (statusAfter o st) = o.code := by
  apply BitVec.eq_of_getLsbD_eq
  intro b hb
  rw [statusResult, BitVec.getLsbD_extractLsb', Nat.zero_add, statusAfter_getLsbD, if_pos hb]
  simp [hb]

@[simp] theorem stickyCap_statusAfter (o : CommandOutcome) (st : Word) :
    stickyCap (statusAfter o st) = (stickyCap st || decide (o = .capacityExhausted)) := by
  rw [stickyCap, statusAfter_getLsbD, if_neg (by decide), stickyBitOf_getLsbD]
  cases o <;> rfl

@[simp] theorem stickyOor_statusAfter (o : CommandOutcome) (st : Word) :
    stickyOor (statusAfter o st) = (stickyOor st || decide (o = .outOfRange)) := by
  rw [stickyOor, statusAfter_getLsbD, if_neg (by decide), stickyBitOf_getLsbD]
  cases o <;> rfl

@[simp] theorem stickyIll_statusAfter (o : CommandOutcome) (st : Word) :
    stickyIll (statusAfter o st) = (stickyIll st || decide (o = .illegalCommand)) := by
  rw [stickyIll, statusAfter_getLsbD, if_neg (by decide), stickyBitOf_getLsbD]
  cases o <;> rfl

/-- CLRSTAT's clearing, bit by bit (R140). -/
theorem clearSticky_getLsbD (st : Word) (b : Nat) :
    (clearSticky st).getLsbD b = (st.getLsbD b && !decide (8 ≤ b ∧ b ≤ 10)) := by
  by_cases hb : b < 64
  · obtain ⟨-, h7, -⟩ := status_constants ⟨b, hb⟩
    simp only [clearSticky, BitVec.getLsbD_and, BitVec.getLsbD_not, hb, decide_true, Bool.true_and, h7]
  · rw [BitVec.getLsbD_of_ge _ b (by omega : 64 ≤ b), BitVec.getLsbD_of_ge st b (by omega)]
    rfl

/-- The reserved bits are zero exactly when every bit outside the fields is (R24). -/
theorem statusReservedZero_iff (st : Word) :
    statusReservedZero st = true ↔ ∀ b, 2 ≤ b → (b < 8 ∨ 10 < b) → st.getLsbD b = false := by
  have hbit : ∀ b, b < 64 → (st &&& ~~~statusFieldMask).getLsbD b =
      (st.getLsbD b && !decide (b < 2 ∨ (8 ≤ b ∧ b ≤ 10))) := by
    intro b hb
    obtain ⟨-, -, hm, -⟩ := status_constants ⟨b, hb⟩
    simp only [BitVec.getLsbD_and, BitVec.getLsbD_not, hb, decide_true, Bool.true_and, hm]
  simp only [statusReservedZero, decide_eq_true_eq]
  constructor
  · intro h b h2 h3
    by_cases hb : b < 64
    · have h4 : ¬(b < 2 ∨ (8 ≤ b ∧ b ≤ 10)) := by omega
      have h5 := hbit b hb
      rw [h] at h5
      simpa only [h4, decide_false, Bool.not_false, Bool.and_true, BitVec.ofNat_eq_ofNat, BitVec.getLsbD_zero]
        using h5.symm
    · exact BitVec.getLsbD_of_ge _ b (by omega)
  · intro h
    apply BitVec.eq_of_getLsbD_eq
    intro b hb
    rw [hbit b hb]
    by_cases h4 : b < 2 ∨ (8 ≤ b ∧ b ≤ 10)
    · rw [decide_eq_true h4, Bool.not_true, Bool.and_false]
      exact BitVec.getLsbD_zero.symm
    · rw [h b (by omega) (by omega), Bool.false_and]
      exact BitVec.getLsbD_zero.symm

/-- The end of a command sets no reserved bit (R154). -/
theorem statusReservedZero_statusAfter {st : Word} (h : statusReservedZero st = true) (o : CommandOutcome) :
    statusReservedZero (statusAfter o st) = true := by
  rw [statusReservedZero_iff] at h ⊢
  intro b h2 h3
  have h8 : b ≠ 8 := by omega
  have h9 : b ≠ 9 := by omega
  have h10 : b ≠ 10 := by omega
  rw [statusAfter_getLsbD, if_neg (by omega), h b h2 h3, stickyBitOf_getLsbD]
  simp [h8, h9, h10]

end Sys2Proof.Machine
end

