-- ==== Sys2Proof/Laws/Exec.lean ====
section
/-! SUPPORT. The shared command bodies in terms of the buffer primitives, when each ends which way; and what a
command, an access and a step can do, once for all later proofs. -/

namespace Sys2Proof.Machine

/-- PUT.W ends OK with the scalar appended when it fits, CAP with nothing changed otherwise (R80). -/
theorem putCommand_cases (w : Width) (s : State) :
    (s.remaining < w.bytes ∧ putCommand w s = endOfCommand .capacityExhausted s) ∨
    (w.bytes ≤ s.remaining ∧ putCommand w s =
      endOfCommand .ok ((s.withStore (memWrite s.store s.cursor.toNat w.bytes s.data)).advance w)) := by
  rcases put_cases w s.data s with ⟨h, hp⟩ | ⟨h, hp⟩
  · exact .inl ⟨h, by simp [putCommand, hp]⟩
  · exact .inr ⟨h, by simp [putCommand, hp]⟩

/-- GET.W ends OK with the scalar in DATA when it is there, OOR with nothing changed otherwise (R85). -/
theorem getCommand_cases (w : Width) (s : State) :
    (s.remaining < w.bytes ∧ getCommand w s = endOfCommand .outOfRange s) ∨
    (w.bytes ≤ s.remaining ∧ getCommand w s =
      endOfCommand .ok (((s.withDraws (memRead s.store s.cursor.toNat w.bytes s.draws).2).advance w).withData
        (memRead s.store s.cursor.toNat w.bytes s.draws).1)) := by
  rcases get_cases w s with ⟨h, hg⟩ | ⟨h, hg⟩
  · exact .inl ⟨h, by simp [getCommand, hg]⟩
  · exact .inr ⟨h, by simp [getCommand, hg]⟩

/-- PACK n is its scalars put in order; it ends OK exactly when all of them fit (R105, R106). -/
theorem packCommand_eq (n : Nat) (s : State) : packCommand n s =
    endOfCommand (if totalBytes (scalarSeq n) ≤ s.remaining then .ok else .capacityExhausted)
      (putAll (packPlan n s).1 (s.withDraws (packPlan n s).2)).2 := by
  have e := (putAll_effect (packPlan n s).1 (s.withDraws (packPlan n s).2)).ok_iff
  have h := fitCount_eq_length_iff (scalarSeq n) s.remaining
  have hl : (packPlan n s).1.length = (scalarSeq n).length := by
    rw [← widthsOf_packPlan n s, widthsOf_length]
  rw [widthsOf_packPlan, hl] at e
  change _ = decide (fitCount (scalarSeq n) s.remaining = _) at e
  simp only [packCommand]
  generalize putAll (packPlan n s).1 (s.withDraws (packPlan n s).2) = r at e ⊢
  obtain ⟨ok, t⟩ := r
  simp only at e
  by_cases hf : totalBytes (scalarSeq n) ≤ s.remaining
  · obtain rfl : ok = true := by simp [e, h.mpr hf]
    simp [hf]
  · obtain rfl : ok = false := by simp [e, mt h.mp hf]
    simp [hf]

/-- UNPACK n is its scalars got in order: all there, and V takes the block they make; or the command ends
OOR where they ran out (R109, R110). -/
theorem unpackCommand_cases (n : Nat) (s : State) :
    (totalBytes (scalarSeq n) ≤ s.remaining ∧ ∃ xs, (getAll (scalarSeq n) s).1 = some xs ∧
      unpackCommand n s = endOfCommand .ok ((getAll (scalarSeq n) s).2.withV (assemble n xs))) ∨
    (s.remaining < totalBytes (scalarSeq n) ∧
      unpackCommand n s = endOfCommand .outOfRange (getAll (scalarSeq n) s).2) := by
  have e := (getAll_effect (scalarSeq n) s).some_iff
  have h := fitCount_eq_length_iff (scalarSeq n) s.remaining
  unfold unpackCommand
  generalize getAll (scalarSeq n) s = r at e ⊢
  obtain ⟨x, t⟩ := r
  by_cases hf : totalBytes (scalarSeq n) ≤ s.remaining
  · simp only [h.mpr hf, decide_true] at e
    obtain ⟨xs, rfl⟩ := Option.isSome_iff_exists.mp e
    exact .inl ⟨hf, xs, rfl, rfl⟩
  · simp only [mt h.mp hf, decide_false, Option.isSome_eq_false_iff, Option.isNone_iff_eq_none] at e
    subst e
    exact .inr ⟨by omega, rfl⟩

/-- Everything PACK n leaves, in terms of the scalars of its plan (R105 to R108): it ends OK exactly when `2n`
bytes remain, in a state `t` in which the scalars that fit are stored one after the other from CURSOR on. -/
theorem packCommand_effect {n : Nat} (hn : n ≤ 64) (s : State) : ∃ t,
    packCommand n s = endOfCommand (if 2 * n ≤ s.remaining then .ok else .capacityExhausted) t ∧
    t = ((s.withDraws (packPlan n s).2).withStore t.store).withCursor t.cursor ∧
    t.cursor.toNat = s.cursor.toNat + totalBytes ((scalarSeq n).take (fitCount (scalarSeq n) s.remaining)) ∧
    (∀ x, x < s.cursor.toNat ∨ t.cursor.toNat ≤ x → t.store.read x = s.store.read x) ∧
    (∀ x, s.cursor.toNat ≤ x → x < t.cursor.toNat → (t.store.read x).isSome = true) ∧
    (∀ i c, (packPlan n s).1[i]? = some c → i < fitCount (scalarSeq n) s.remaining → ∀ q, q < c.width.bytes →
      t.store.read (s.cursor.toNat + totalBytes ((scalarSeq n).take i) + q) = some (byteOf c.value q)) ∧
    (s.store.wf → t.store.wf) ∧
    (∀ c ∈ t.store, c ∈ s.store ∨ (s.cursor.toNat ≤ c.1 ∧ c.1 < t.cursor.toNat)) := by
  have e := putAll_effect (packPlan n s).1 (s.withDraws (packPlan n s).2)
  have hc := e.cursor
  have hs := e.stored
  rw [widthsOf_packPlan] at hc hs
  exact ⟨_, by rw [packCommand_eq, totalBytes_scalarSeq hn], e.frame, hc, e.outside, e.inside, hs, e.wf, e.cells⟩

/-- Everything UNPACK n leaves, in terms of the scalars it reads (R109, R110): with `2n` bytes remaining, V is
the block the scalars make, each of whose bytes is the one a read sees in its place; with fewer, the command ends
OOR with V unchanged. Only CURSOR and the draw counter move besides. -/
theorem unpackCommand_effect {n : Nat} (hn : n ≤ 64) (s : State) : ∃ c d,
    c.toNat = s.cursor.toNat + totalBytes ((scalarSeq n).take (fitCount (scalarSeq n) s.remaining)) ∧
    d = s.draws + unwrittenBefore s.store s.cursor.toNat
      (totalBytes ((scalarSeq n).take (fitCount (scalarSeq n) s.remaining))) ∧
    ((2 * n ≤ s.remaining ∧ ∃ xs : List Word,
      unpackCommand n s = endOfCommand .ok (((s.withDraws d).withCursor c).withV (assemble n xs)) ∧
      xs.length = (scalarSeq n).length ∧
      ∀ i w x, (scalarSeq n)[i]? = some w → xs[i]? = some x →
        (∀ q, q < w.bytes →
          byteOf x q = seenByte s.store s.cursor.toNat s.draws (totalBytes ((scalarSeq n).take i) + q)) ∧
        (∀ b, w.bits ≤ b → x.getLsbD b = false)) ∨
    (s.remaining < 2 * n ∧ unpackCommand n s = endOfCommand .outOfRange ((s.withDraws d).withCursor c))) := by
  have e := getAll_effect (scalarSeq n) s
  have h := unpackCommand_cases n s
  rw [totalBytes_scalarSeq hn] at h
  generalize (getAll (scalarSeq n) s).2 = t at e h
  refine ⟨t.cursor, t.draws, e.cursor, e.draws, ?_⟩
  rw [← e.frame]
  rcases h with ⟨hf, xs, hxs, h⟩ | h
  · exact .inl ⟨hf, xs, h, e.length xs hxs, e.values xs hxs⟩
  · exact .inr h

/-- The end of a command, as the claims say it (R154). -/
theorem statusEnds_statusAfter (o : CommandOutcome) (st : Word) : StatusEnds o st (statusAfter o st) := by
  refine ⟨by simp, by simp, by simp, by simp, fun b h1 h2 => ?_⟩
  rw [statusAfter_getLsbD, if_neg (by omega), stickyBitOf_getLsbD]
  have h8 : b ≠ 8 := by omega
  have h9 : b ≠ 9 := by omega
  have h10 : b ≠ 10 := by omega
  simp [h8, h9, h10]

/-- A scalar fits exactly when it ends at or below CAPACITY. -/
theorem bytes_le_remaining_iff (s : State) {k : Nat} (hk : 0 < k) :
    k ≤ s.remaining ↔ s.cursor.toNat + k ≤ s.capacity.toNat := by
  unfold State.remaining
  omega

/-! ### What a command can do -/

theorem exec_putInstr (w : Width) (s : State) : exec (putInstr w) s = .next (putCommand w s) := by
  cases w <;> rfl

theorem exec_getInstr (w : Width) (s : State) : exec (getInstr w) s = .next (getCommand w s) := by
  cases w <;> rfl

theorem exec_pack {n : BitVec 7} (h : n.toNat ≤ 64) (s : State) :
    exec (.pack n) s = .next (packCommand n.toNat s) := by
  simp [exec, execPack, legalBitWidth, maxBitWidth, bitWidth, h]

theorem exec_unpack {n : BitVec 7} (h : n.toNat ≤ 64) (s : State) :
    exec (.unpack n) s = .next (unpackCommand n.toNat s) := by
  simp [exec, execUnpack, legalBitWidth, maxBitWidth, bitWidth, h]

/-- Everything a command can do: one case for each family, and the ill-formed widths. -/
theorem exec_cases {i : Instr} {s t : State} (h : exec i s = .next t) :
    (∃ w, i = putInstr w ∧ t = putCommand w s) ∨
    (∃ w, i = getInstr w ∧ t = getCommand w s) ∨
    (∃ n, i = .pack n ∧ n.toNat ≤ 64 ∧ t = packCommand n.toNat s) ∨
    (∃ n, i = .unpack n ∧ n.toNat ≤ 64 ∧ t = unpackCommand n.toNat s) ∨
    (i = .rewind ∧ t = endOfCommand .ok (rewind s)) ∨
    (i = .clrstat ∧ t = endOfCommand .ok (s.withStatus (clearSticky s.status))) ∨
    (∃ n, (i = .pack n ∨ i = .unpack n) ∧ 64 < n.toNat ∧ t = illegalCommand s) := by
  cases i <;> simp only [exec, execPack, execUnpack, execPut8, execPut16, execPut32, execPut64, execGet8,
    execGet16, execGet32, execGet64, execRewind, execClrstat, Host.Outcome.next.injEq] at h <;> subst h
  case pack n =>
    by_cases hl : n.toNat ≤ 64
    · exact .inr (.inr (.inl ⟨n, rfl, hl, by simp [legalBitWidth, maxBitWidth, bitWidth, hl]⟩))
    · exact .inr (.inr (.inr (.inr (.inr (.inr ⟨n, .inl rfl, by omega, by
        simp [legalBitWidth, maxBitWidth, hl]⟩)))))
  case unpack n =>
    by_cases hl : n.toNat ≤ 64
    · exact .inr (.inr (.inr (.inl ⟨n, rfl, hl, by simp [legalBitWidth, maxBitWidth, bitWidth, hl]⟩)))
    · exact .inr (.inr (.inr (.inr (.inr (.inr ⟨n, .inr rfl, by omega, by
        simp [legalBitWidth, maxBitWidth, hl]⟩)))))
  case put8 => exact .inl ⟨.w8, rfl, rfl⟩
  case put16 => exact .inl ⟨.w16, rfl, rfl⟩
  case put32 => exact .inl ⟨.w32, rfl, rfl⟩
  case put64 => exact .inl ⟨.w64, rfl, rfl⟩
  case get8 => exact .inr (.inl ⟨.w8, rfl, rfl⟩)
  case get16 => exact .inr (.inl ⟨.w16, rfl, rfl⟩)
  case get32 => exact .inr (.inl ⟨.w32, rfl, rfl⟩)
  case get64 => exact .inr (.inl ⟨.w64, rfl, rfl⟩)
  case rewind => simp
  case clrstat => simp

/-! ### What a step can do -/

/-- Everything an input can do to the state from which it was taken: a command, an illegal word, a register
access, or one of the resets. -/
theorem performInput_cases {x : Input} {s t : State} (h : performInput x s = .next t) :
    (∃ c i, x = issueInput c ∧ decode c = .ok i ∧ exec i s = .next t) ∨
    (∃ c e, x = issueInput c ∧ decode c = .error e ∧ t = illegalCommand s) ∨
    (∃ idx, x = .access (.read idx) ∧ t = hostRead idx s) ∨
    (∃ idx y, x = .access (.write idx y) ∧ HostReg.ofIndex idx = .data ∧ t = s.withData y) ∨
    (∃ idx y i, x = .access (.write idx y) ∧ HostReg.ofIndex idx = .v i ∧ t = s.withV (s.v.set i y)) ∨
    (∃ idx y, x = .access (.write idx y) ∧ idx ≠ 0 ∧ t = s) ∨
    (x = .reset ∧ t = hardwareReset s) ∨
    (∃ a, x = .resetDuring a ∧ t = resetDuringAccess a s) ∨
    (x = .powerOn ∧ t = powerOnReset s) := by
  have hcmd : ∀ idx : RegIndex, HostReg.ofIndex idx = .cmd → idx = 0 := by decide
  have hzero : HostReg.ofIndex 0 = .cmd := by decide
  cases x with
  | reset => simp [performInput] at h; simp [h]
  | powerOn => simp [performInput] at h; simp [h]
  | resetDuring a => simp [performInput] at h; simp [h]
  | access a =>
    cases a with
    | read idx => simp [performInput, performAccess] at h; simp [h]
    | write idx y =>
      simp only [performInput, performAccess, hostWrite] at h
      cases hr : HostReg.ofIndex idx with
      | cmd =>
        obtain rfl := hcmd idx hr
        simp only [hr, issueCommand] at h
        cases hd : decode y with
        | ok i =>
          rw [hd] at h
          exact .inl ⟨y, i, rfl, hd, h⟩
        | error e =>
          rw [hd] at h
          exact .inr (.inl ⟨y, e, rfl, hd, by simpa using h.symm⟩)
      | data =>
        simp only [hr, Host.Outcome.next.injEq] at h
        exact .inr (.inr (.inr (.inl ⟨idx, y, rfl, hr, h.symm⟩)))
      | v i =>
        simp only [hr, Host.Outcome.next.injEq] at h
        exact .inr (.inr (.inr (.inr (.inl ⟨idx, y, i, rfl, hr, h.symm⟩))))
      | status | cursor | capacity | reserved =>
        simp only [hr, Host.Outcome.next.injEq] at h
        refine .inr (.inr (.inr (.inr (.inr (.inl ⟨idx, y, rfl, ?_, h.symm⟩)))))
        rintro rfl
        exact absurd (hr.symm.trans hzero) (by decide)

/-- A step performs the head of the queue on the state without it, or, with nothing pending, changes nothing. -/
theorem step_cases {s t : State} (h : step s = .next t) :
    (s.inputs = [] ∧ t = s) ∨
    (∃ x rest, s.inputs = x :: rest ∧ performInput x (s.withInputs rest) = .next t) := by
  unfold step performNext at h
  cases hq : s.inputs with
  | nil => simp only [hq, Host.Outcome.next.injEq] at h; exact .inl ⟨rfl, h.symm⟩
  | cons x rest => simp only [hq] at h; exact .inr ⟨x, rest, rfl, h⟩

end Sys2Proof.Machine
end

