-- ==== Sys2Proof/Laws/PerInstr.lean ====
section
/-! SUPPORT. A fact of every command as syntax, one lemma per constructor: its command word has every
reserved bit zero (R65), and its OP field is its operation code (R66). -/

namespace Sys2Proof.Laws.ReservedFieldsZero

/-- The command word of `i` has RES_HI and RES_LO zero and one of the six operation codes. -/
def Statement (i : Instr) : Prop :=
  fieldResHi (encode i) = 0 ∧ fieldResLo (encode i) = 0 ∧ 1 ≤ (fieldOp (encode i)).toNat ∧
    (fieldOp (encode i)).toNat ≤ 6

/-- The fields of a word put together from its fields (R65). -/
theorem commandWord_fields (arg : BitVec 7) (op : BitVec 4) :
    fieldResHi (commandWord arg op) = 0 ∧ fieldResLo (commandWord arg op) = 0 ∧
    fieldOp (commandWord arg op) = op ∧ fieldArg (commandWord arg op) = arg := by
  have hbit : ∀ b, (commandWord arg op).getLsbD b =
      ((decide (b < 64) && (!decide (b < 8) && (decide (b - 8 < 64) && arg.getLsbD (b - 8)))) ||
        (decide (b < 64) && op.getLsbD b)) := by
    intro b
    simp only [commandWord, BitVec.getLsbD_or, BitVec.getLsbD_shiftLeft, BitVec.getLsbD_setWidth, Bool.and_assoc]
  refine ⟨?_, ?_, ?_, ?_⟩ <;> apply BitVec.eq_of_getLsbD_eq <;> intro b hb
  · rw [fieldResHi, BitVec.getLsbD_extractLsb', hbit, BitVec.getLsbD_of_ge arg _ (by omega),
      BitVec.getLsbD_of_ge op _ (by omega)]
    simp
  · rw [fieldResLo, BitVec.getLsbD_extractLsb', hbit, BitVec.getLsbD_of_ge op _ (by omega)]
    have h1 : 4 + b < 8 := by omega
    simp [h1]
  · rw [fieldOp, BitVec.getLsbD_extractLsb', Nat.zero_add, hbit]
    have h1 : b < 8 := by omega
    have h2 : b < 64 := by omega
    simp only [hb, h1, h2, decide_true, Bool.not_true, Bool.false_and, Bool.and_false, Bool.false_or,
      Bool.true_and]
  · rw [fieldArg, BitVec.getLsbD_extractLsb', hbit, BitVec.getLsbD_of_ge op _ (by omega)]
    have h1 : ¬8 + b < 8 := by omega
    have h2 : 8 + b < 64 := by omega
    have h3 : 8 + b - 8 = b := by omega
    have h4 : b < 64 := by omega
    simp only [hb, h1, h2, h3, h4, decide_true, decide_false, Bool.not_false, Bool.and_false, Bool.or_false,
      Bool.true_and]

/-- The statement for a word with a given argument and operation code. -/
theorem of_commandWord {i : Instr} {arg : BitVec 7} {op : BitVec 4} (h : encode i = commandWord arg op)
    (h1 : 1 ≤ op.toNat) (h2 : op.toNat ≤ 6) : Statement i := by
  obtain ⟨hi, lo, ho, -⟩ := commandWord_fields arg op
  exact ⟨h ▸ hi, h ▸ lo, by rw [h, ho]; exact h1, by rw [h, ho]; exact h2⟩

theorem pack (n : BitVec 7) : Statement (.pack n) := of_commandWord rfl (by decide) (by decide)
theorem unpack (n : BitVec 7) : Statement (.unpack n) := of_commandWord rfl (by decide) (by decide)
theorem put8 : Statement .put8 := of_commandWord rfl (by decide) (by decide)
theorem put16 : Statement .put16 := of_commandWord rfl (by decide) (by decide)
theorem put32 : Statement .put32 := of_commandWord rfl (by decide) (by decide)
theorem put64 : Statement .put64 := of_commandWord rfl (by decide) (by decide)
theorem get8 : Statement .get8 := of_commandWord rfl (by decide) (by decide)
theorem get16 : Statement .get16 := of_commandWord rfl (by decide) (by decide)
theorem get32 : Statement .get32 := of_commandWord rfl (by decide) (by decide)
theorem get64 : Statement .get64 := of_commandWord rfl (by decide) (by decide)
theorem rewind : Statement .rewind := of_commandWord rfl (by decide) (by decide)
theorem clrstat : Statement .clrstat := of_commandWord rfl (by decide) (by decide)

end Sys2Proof.Laws.ReservedFieldsZero
end

