-- ==== Sys2Proof/Tests/Slice0.lean ====
section
/-! SUPPORT. Tests. Every expected value is from the spec: the tables R65, R66, R68 and the vectors T-E, T-H, T-P,
T-G, T-R, T-K, T-U, T-S of 95_test_vectors.md, named in each comment. Then, for every statement with hypotheses, a
witness: concrete states and operands that meet them. -/

namespace Sys2Proof.Tests
open Sys2Proof Sys2Proof.Machine

/-! ### Building small states -/

/-- A block of sixteen values. -/
def blockOf (xs : List Nat) : Block := Vector.ofFn fun i => BitVec.ofNat 64 (xs.getD i.val 0)

/-- A value to each of the sixteen registers. -/
def blockFn (f : Nat → Nat) : Block := Vector.ofFn fun i => BitVec.ofNat 64 (f i.val)

/-- Bytes from address `a` on. -/
def bytesFrom (a : Nat) : List Nat → Memory
  | [] => []
  | b :: bs => (a, BitVec.ofNat 8 b) :: bytesFrom (a + 1) bs

/-- The block just after power-on, of the given CAPACITY, with CURSOR and STORE as given. -/
def block (capacity cursor : Nat) (store : Memory) : State :=
  ((State.powerOn (BitVec.ofNat 64 capacity)).withCursor (BitVec.ofNat 64 cursor)).withStore store

/-- `s` with the host's write of command word `c` as its next input. -/
def issue (c : Word) (s : State) : State := s.withInputs (issueInput c :: s.inputs)

/-- The host's access `a` as the next input of `s`. -/
def access (a : Access) (s : State) : State := s.withInputs (.access a :: s.inputs)

/-- One step gives a next state, and `p` holds of it. -/
def stepGives (s : State) (p : State → Bool) : Bool :=
  match step s with
  | .next t => p t
  | _ => false

/-- The values of V. -/
def valuesOf (s : State) : List Nat := s.v.toList.map BitVec.toNat

/-- W1's block. -/
def w1 : Block := blockOf [0, 1, 2, 3, 4, 5, 6, 7, 0, 1, 2, 3, 4, 5, 6, 7]

/-- W2's block. -/
def w2 : Block := blockOf [0x2BCDEF, 0x579BDE, 0x0369CD, 0x2F37BC, 0x5B05AB, 0x06D39A, 0x32A189, 0x5E6F78,
  0x0A3D67, 0x360B56, 0x61D945, 0x0DA734, 0x397523, 0x654312, 0x111101, 0x3CDEF0]

/-- W2's 46 stream bytes. -/
def w2Bytes : List Nat := [0xef, 0xcd, 0xde, 0x9b, 0xcd, 0x69, 0xbc, 0x37, 0xab, 0x05, 0x9a, 0xd3, 0x89, 0xa1, 0x78,
  0x6f, 0x67, 0x3d, 0x56, 0x0b, 0x45, 0xd9, 0x34, 0xa7, 0x23, 0x75, 0x12, 0x43, 0x01, 0x11, 0xf0, 0xde,
  0xab, 0xeb, 0xe0, 0xb5, 0x35, 0xc8, 0xbc, 0x0a, 0x5b, 0xb8, 0x91, 0x2b, 0x47, 0x78]

/-! ### Well-formedness: each check refuses an ill-formed term (R67, R69 item 3) -/

theorem test_wellformed_pack_65 : (Instr.pack 65).wellFormed = false := by decide

theorem test_wellformed_unpack_127 : (Instr.unpack 127).wellFormed = false := by decide

theorem test_wellformed_bounds :
    (Instr.pack 0).wellFormed = true ∧ (Instr.pack 64).wellFormed = true ∧
    (Instr.unpack 0).wellFormed = true ∧ (Instr.unpack 64).wellFormed = true := by decide

/-! ### Decoding words written out from R65: RES_HI, ARG, RES_LO, OP -/

/-- OP 0001, ARG the width: PACK 23 and PACK 64. -/
theorem test_decode_pack :
    decode (0#49 ++ 0b0010111#7 ++ 0b0000#4 ++ 0b0001#4) = .ok (.pack 23) ∧
    decode (0#49 ++ 0b1000000#7 ++ 0b0000#4 ++ 0b0001#4) = .ok (.pack 64) := by decide

/-- OP 0010: UNPACK 4 and UNPACK 41. -/
theorem test_decode_unpack :
    decode (0#49 ++ 0b0000100#7 ++ 0b0000#4 ++ 0b0010#4) = .ok (.unpack 4) ∧
    decode (0#49 ++ 0b0101001#7 ++ 0b0000#4 ++ 0b0010#4) = .ok (.unpack 41) := by decide

/-- OP 0011, WC in the low two bits of ARG: the four PUTs. -/
theorem test_decode_put :
    decode (0#49 ++ 0b00000#5 ++ 0b00#2 ++ 0b0000#4 ++ 0b0011#4) = .ok .put8 ∧
    decode (0#49 ++ 0b00000#5 ++ 0b01#2 ++ 0b0000#4 ++ 0b0011#4) = .ok .put16 ∧
    decode (0#49 ++ 0b00000#5 ++ 0b10#2 ++ 0b0000#4 ++ 0b0011#4) = .ok .put32 ∧
    decode (0#49 ++ 0b00000#5 ++ 0b11#2 ++ 0b0000#4 ++ 0b0011#4) = .ok .put64 := by decide

/-- OP 0100: the four GETs. -/
theorem test_decode_get :
    decode (0#49 ++ 0b00000#5 ++ 0b00#2 ++ 0b0000#4 ++ 0b0100#4) = .ok .get8 ∧
    decode (0#49 ++ 0b00000#5 ++ 0b01#2 ++ 0b0000#4 ++ 0b0100#4) = .ok .get16 ∧
    decode (0#49 ++ 0b00000#5 ++ 0b10#2 ++ 0b0000#4 ++ 0b0100#4) = .ok .get32 ∧
    decode (0#49 ++ 0b00000#5 ++ 0b11#2 ++ 0b0000#4 ++ 0b0100#4) = .ok .get64 := by decide

/-- OP 0101 and 0110: REWIND and CLRSTAT. -/
theorem test_decode_rewind_clrstat :
    decode (0#49 ++ 0b0000000#7 ++ 0b0000#4 ++ 0b0101#4) = .ok .rewind ∧
    decode (0#49 ++ 0b0000000#7 ++ 0b0000#4 ++ 0b0110#4) = .ok .clrstat := by decide

/-- T-E3, T-E4, T-E7 to T-E14, T-E17: the illegal words, each with the item of R69 it breaks. -/
theorem test_decode_illegal :
    decode 0x4101 = .error .bitWidthAbove64 ∧ decode 0x7F02 = .error .bitWidthAbove64 ∧
    decode 0x403 = .error .scalarArg ∧ decode 0x13 = .error .reservedBits ∧
    decode 0x100000001 = .error .reservedBits ∧ decode 0x105 = .error .argNotZero ∧
    decode 0x106 = .error .argNotZero ∧ decode 0 = .error .reservedOp ∧ decode 0x7 = .error .reservedOp ∧
    decode 0xF = .error .reservedOp ∧ decode 0x8000000000000001 = .error .reservedBits := by decide

/-- R66's encoded words. -/
theorem test_encode_words :
    encode (.pack 3) = 0x301 ∧ encode (.pack 64) = 0x4001 ∧ encode (.unpack 23) = 0x1702 ∧
    encode .put8 = 0x3 ∧ encode .put16 = 0x103 ∧ encode .put32 = 0x203 ∧ encode .put64 = 0x303 ∧
    encode .get8 = 0x4 ∧ encode .get16 = 0x104 ∧ encode .get32 = 0x204 ∧ encode .get64 = 0x304 ∧
    encode .rewind = 0x5 ∧ encode .clrstat = 0x6 := by decide

/-- The table's numbering is R65's, and a word given fewer bits has zeros above them. -/
theorem test_decode_table_word :
    decodeTableWord 64 0x4001 = some (.pack 64) ∧ decodeTableWord 64 0x7 = none ∧
    decodeTableWord 8 0x3 = some .put8 := by decide

/-! ### PACK and UNPACK -/

/-- W2, T-K17: PACK 23 writes the 46 bytes. -/
theorem test_pack_23 : stepGives (issue 0x1701 ((block 46 0 []).withV w2)) (fun t =>
    t.store == bytesFrom 0 w2Bytes && t.cursor == 46 && t.status == 0 && t.v == w2) = true := by decide

/-- T-K24, with W1's block: the 32-bit tile fits, the 16-bit tile does not. -/
theorem test_pack_3_capacity_5 : stepGives (issue 0x301 ((block 5 0 []).withV w1)) (fun t =>
    t.store == bytesFrom 0 [0x88, 0xC6, 0xFA, 0x88] && t.cursor == 4 && t.status == 0x101) = true := by decide

/-- W2: UNPACK 23 of the 46 bytes gives the block back. -/
theorem test_unpack_23 : stepGives (issue 0x1702 (block 46 0 (bytesFrom 0 w2Bytes))) (fun t =>
    t.v == w2 && t.cursor == 46 && t.status == 0) = true := by decide

/-- T-U4: width 4 uses the 4-bit rule. -/
theorem test_unpack_4 : stepGives (issue 0x402
    (block 8 0 (bytesFrom 0 [0x10, 0x32, 0x54, 0x76, 0x98, 0xBA, 0xDC, 0xFE]))) (fun t =>
    valuesOf t == List.range 16 && t.cursor == 8 && t.status == 0) = true := by decide

/-! ### PUT.W and GET.W -/

/-- T-P1. -/
theorem test_put8 : stepGives (issue 0x3 ((block 8 0 []).withData 0x1FF)) (fun t =>
    t.store == bytesFrom 0 [0xFF] && t.cursor == 1 && t.status == 0) = true := by decide

/-- T-P2. -/
theorem test_put8_full : stepGives (issue 0x3 (block 1 1 [])) (fun t =>
    t.store == [] && t.cursor == 1 && t.status == 0x101) = true := by decide

/-- T-P3. -/
theorem test_put16 : stepGives (issue 0x103 ((block 4 0 []).withData 0xFFFF1234)) (fun t =>
    t.store == bytesFrom 0 [0x34, 0x12] && t.cursor == 2) = true := by decide

/-- T-P4. -/
theorem test_put32_unaligned : stepGives (issue 0x203 ((block 8 1 []).withData 0xAABBCCDD)) (fun t =>
    t.store == bytesFrom 1 [0xDD, 0xCC, 0xBB, 0xAA] && t.cursor == 5 && t.status == 0) = true := by decide

/-- T-P5. -/
theorem test_put32_one_short : stepGives (issue 0x203 (block 4 1 [])) (fun t =>
    t.store == [] && t.cursor == 1 && t.status == 0x101) = true := by decide

/-- T-P6. -/
theorem test_put64_exact_fit : stepGives (issue 0x303 ((block 8 0 []).withData 0x0123456789ABCDEF)) (fun t =>
    t.store == bytesFrom 0 [0xEF, 0xCD, 0xAB, 0x89, 0x67, 0x45, 0x23, 0x01] && t.cursor == 8 &&
      t.status == 0) = true := by decide

/-- T-P7. -/
theorem test_put64_one_short : stepGives (issue 0x303 (block 15 8 [])) (fun t =>
    t.store == [] && t.cursor == 8 && t.status == 0x101) = true := by decide

/-- T-G4. -/
theorem test_get8 : stepGives (issue 0x4 (block 3 2 (bytesFrom 2 [0x80]))) (fun t =>
    t.data == 0x80 && t.cursor == 3 && t.status == 0) = true := by decide

/-- T-G2. -/
theorem test_get8_at_end : stepGives (issue 0x4
    ((block 4 4 (bytesFrom 0 [0x44, 0x33, 0x22, 0x11])).withData 0x11223344)) (fun t =>
    t.data == 0x11223344 && t.cursor == 4 && t.status == 0x202) = true := by decide

/-- T-G3. -/
theorem test_get16_zero_extends : stepGives (issue 0x104
    ((block 2 0 (bytesFrom 0 [0x34, 0x12])).withData 0xFFFFFFFFFFFFFFFF)) (fun t =>
    t.data == 0x1234 && t.cursor == 2) = true := by decide

/-- T-G1. -/
theorem test_get32 : stepGives (issue 0x204 (block 4 0 (bytesFrom 0 [0x44, 0x33, 0x22, 0x11]))) (fun t =>
    t.data == 0x11223344 && t.cursor == 4 && t.status == 0) = true := by decide

/-- T-G5. -/
theorem test_get32_one_short : stepGives (issue 0x204 (block 6 3 [])) (fun t =>
    t.cursor == 3 && t.status == 0x202) = true := by decide

/-- T-G6. -/
theorem test_get64 : stepGives (issue 0x304
    (block 8 0 (bytesFrom 0 [0xEF, 0xCD, 0xAB, 0x89, 0x67, 0x45, 0x23, 0x01]))) (fun t =>
    t.data == 0x0123456789ABCDEF && t.cursor == 8) = true := by decide

/-! ### REWIND, CLRSTAT and illegal words -/

/-- T-R1. -/
theorem test_rewind : stepGives (issue 0x5 ((block 8 6 (bytesFrom 0 [1, 2])).withStatus 0x202)) (fun t =>
    t.cursor == 0 && t.status == 0x200 && t.store == bytesFrom 0 [1, 2]) = true := by decide

/-- T-S2. -/
theorem test_clrstat : stepGives (issue 0x6 ((block 8 6 []).withStatus 0x701)) (fun t =>
    t.status == 0 && t.cursor == 6) = true := by decide

/-- T-S4: PACK 65 writes nothing. -/
theorem test_illegal_pack_65 : stepGives (issue 0x4101 ((block 8 4 []).withStatus 0x101)) (fun t =>
    t.status == 0x503 && t.cursor == 4 && t.store == []) = true := by decide

/-- T-S7: an illegal CLRSTAT clears nothing. -/
theorem test_illegal_clrstat : stepGives (issue 0x106 ((block 8 0 []).withStatus 0x202)) (fun t =>
    t.status == 0x603) = true := by decide

/-! ### Host accesses and the notation of host programs -/

/-- T-H3 and T-H4: writes of CURSOR and STATUS change nothing. -/
theorem test_write_read_only : stepGives (access (.write 2 0) ((block 8 5 []).withStatus 0x202)) (fun t =>
    t == (block 8 5 []).withStatus 0x202) = true ∧
    stepGives (access (.write 1 0) ((block 8 5 []).withStatus 0x202)) (fun t =>
      t == (block 8 5 []).withStatus 0x202) = true := by decide

/-- T-H2, T-H5 and T-H6: offsets 0x28, 0x18 and 0x98. -/
theorem test_read_registers :
    stepGives (access (.read 5) (block 16 0 [])) (fun t => t.responses == [0]) = true ∧
    stepGives (access (.read 3) (block 16 0 [])) (fun t => t.responses == [16]) = true ∧
    stepGives (access (.read 19) ((block 16 0 []).withV w1)) (fun t => t.responses == [3]) = true := by decide

/-- P3's first line, offset 0xE0. -/
theorem test_write_v12 : stepGives (access (.write 28 0x1F) (block 16 0 [])) (fun t =>
    valuesOf t == [0, 0, 0, 0, 0, 0, 0, 0, 0, 0, 0, 0, 0x1F, 0, 0, 0]) = true := by decide

/-- The first, second and last accesses of P1: `(0x80, 0)`, `(0x88, 1)` and `(0x00, 0x301)`. -/
theorem test_program_inputs :
    (programInputs [.wrblk w1, .comment "pack", .cmd (.pack 3)])[0]? = some (.access (.write 16 0)) ∧
    (programInputs [.wrblk w1, .comment "pack", .cmd (.pack 3)])[1]? = some (.access (.write 17 1)) ∧
    (programInputs [.wrblk w1, .comment "pack", .cmd (.pack 3)])[16]? = some (.access (.write 0 0x301)) ∧
    (programInputs [.wrblk w1, .comment "pack", .cmd (.pack 3)]).length = 17 := by decide

/-- R33, R170: a reset keeps STORE and CAPACITY, and power-on makes every byte unwritten. -/
theorem test_reset :
    stepGives ((((block 8 3 (bytesFrom 0 [7])).withData 5).withStatus 0x101).withInputs [.reset]) (fun t =>
      t == block 8 0 (bytesFrom 0 [7])) = true ∧
    stepGives (((block 8 3 (bytesFrom 0 [7])).withV w1).withInputs [.powerOn]) (fun t =>
      t == block 8 0 []) = true := by decide

/-- A word placed as the next input of the reset state runs, whatever the build's CAPACITY. -/
theorem test_fetch_from_reset : ∃ t, step (State.reset.withFetchWord 64 0x301) = .next t := ⟨_, rfl⟩

/-! ### Witnesses: the hypotheses of each statement, met together -/

/-- A block of CAPACITY 46 holding W2's block in V, at CURSOR 0: PACK 23 just fits. -/
def fits : State := (block 46 0 []).withV w2

/-- One byte less: PACK 23 fails at its last scalar. -/
def oneShort : State := (block 45 0 []).withV w2

/-- A full buffer. -/
def full : State := block 8 8 (bytesFrom 0 [1, 2, 3, 4, 5, 6, 7, 8])

/-- Eight written bytes, CURSOR at the start. -/
def eight : State := block 8 0 (bytesFrom 0 [0x10, 0x32, 0x54, 0x76, 0x98, 0xBA, 0xDC, 0xFE])

theorem not_legal_word_7 : ¬legalWord 0x7 := fun h => absurd h.2.1.2 (by decide)

theorem not_legal_word_pack_65 : ¬legalWord 0x4101 := fun h => absurd (h.2.2.1 (.inl (by decide))) (by decide)

theorem not_legal_word_bit_63 : ¬legalWord 0x8000000000000001 := fun h => absurd (h.1.1 63 (by decide)) (by decide)

theorem witness_DecodeOfEncodeIsTheCommand :
    (Instr.pack 0).wellFormed = true ∧ (Instr.unpack 64).wellFormed = true ∧ Instr.put8.wellFormed = true := by
  decide

theorem witness_EncodeOfDecodeIsTheWord :
    decode 0x4001 = .ok (.pack 64) ∧ decode 0x2 = .ok (.unpack 0) ∧ decode 0x304 = .ok .get64 := by decide

theorem witness_LegalWordsAreThoseOfRule69 :
    (¬legalWord 0x7 ∧ (issue 0x7 full).inputs = issueInput 0x7 :: []) ∧
    (¬legalWord 0x4101 ∧ (issue 0x4101 full).inputs = issueInput 0x4101 :: []) ∧
    (¬legalWord 0x8000000000000001 ∧
      (issue 0x8000000000000001 full).inputs = issueInput 0x8000000000000001 :: []) :=
  ⟨⟨not_legal_word_7, rfl⟩, ⟨not_legal_word_pack_65, rfl⟩, ⟨not_legal_word_bit_63, rfl⟩⟩

theorem witness_IllegalWordOnlyReports :
    ¬legalWord 0x7 ∧ (issue 0x7 full).inputs = issueInput 0x7 :: [] ∧ (issue 0x7 full).status = 0 :=
  ⟨not_legal_word_7, rfl, rfl⟩

theorem witness_StepRunsTheIssuedCommand :
    (issue 0x1701 fits).inputs = issueInput 0x1701 :: [] ∧ decode 0x1701 = .ok (.pack 23) := by decide

theorem witness_FetchWordIsRunNext : decodeTableWord 64 0x1701 = some (.pack 23) := by decide

theorem witness_EveryStepCompletesOneInput :
    (block 8 0 []).inputs = [] ∧ (issue 0x1701 fits).inputs = issueInput 0x1701 :: [] := by decide

/-- Exact fit and one byte short, for the narrowest and the widest scalar; and CAPACITY 0. -/
theorem witness_PutAppendsScalarOrEndsCap :
    (block 8 7 []).cursor.toNat + Width.w8.bytes ≤ (block 8 7 []).capacity.toNat ∧
    (block 8 0 []).cursor.toNat + Width.w64.bytes ≤ (block 8 0 []).capacity.toNat ∧
    full.capacity.toNat < full.cursor.toNat + Width.w8.bytes ∧
    (block 8 1 []).capacity.toNat < (block 8 1 []).cursor.toNat + Width.w64.bytes ∧
    (block 0 0 []).capacity.toNat < (block 0 0 []).cursor.toNat + Width.w8.bytes := by decide

/-- The last byte of the scalar is a written one, and bit `W` is the first above it. -/
theorem witness_GetReadsScalarOrEndsOor :
    (eight.cursor.toNat + Width.w64.bytes ≤ eight.capacity.toNat ∧ 7 < Width.w64.bytes ∧
      eight.byte (eight.cursor.toNat + 7) = some 0xFE) ∧
    (eight.cursor.toNat + Width.w8.bytes ≤ eight.capacity.toNat ∧ 0 < Width.w8.bytes ∧
      eight.byte (eight.cursor.toNat + 0) = some 0x10 ∧ Width.w8.bits ≤ 8) ∧
    full.capacity.toNat < full.cursor.toNat + Width.w8.bytes := by decide

theorem witness_UnwrittenBytesReadAsFreshDraws :
    (block 8 0 (bytesFrom 0 [1])).cursor.toNat + Width.w16.bytes ≤ (block 8 0 (bytesFrom 0 [1])).capacity.toNat ∧
    1 < Width.w16.bytes ∧
    (block 8 0 (bytesFrom 0 [1])).byte ((block 8 0 (bytesFrom 0 [1])).cursor.toNat + 1) = none := by decide

theorem witness_PutThenGetReturnsTheScalar :
    eight.cursor.toNat + Width.w64.bytes ≤ eight.capacity.toNat ∧
    ∃ t, exec (putInstr .w64) eight = .next t := ⟨by decide, _, rfl⟩

theorem witness_ScalarsAreLittleEndian :
    eight.cursor.toNat + Width.w64.bytes ≤ eight.capacity.toNat ∧ 7 < Width.w64.bytes ∧
    ∃ t, exec (putInstr .w64) eight = .next t := ⟨by decide, by decide, _, rfl⟩

theorem witness_PutIgnoresDataAboveItsWidth :
    (∀ b, b < Width.w8.bits → (0xFF0 : Word).getLsbD b = ((block 8 0 []).withData 0x1F0).data.getLsbD b) ∧
    ∃ t, exec (putInstr .w8) ((block 8 0 []).withData 0x1F0) = .next t := ⟨by decide, _, rfl⟩

theorem witness_ClrstatClearsStatus : statusReservedZero ((block 8 0 []).withStatus 0x703).status = true ∧
    (2 ≤ 11 ∧ (11 < 8 ∨ 10 < 11)) := by decide

theorem witness_StatusIsWrittenOnlyAtCommandEnd :
    ((∃ t, step (issue 0x1701 oneShort) = .next t) ∧
      (issue 0x1701 oneShort).inputs = issueInput 0x1701 :: [] ∧ decode 0x1701 ≠ .ok .clrstat) ∧
    ((∃ t, step (access (.write 4 9) eight) = .next t) ∧
      (access (.write 4 9) eight).inputs = .access (.write 4 9) :: [] ∧
      ∀ c, Access.write 4 9 ≠ .write 0 c) :=
  ⟨⟨⟨_, rfl⟩, rfl, by decide⟩, ⟨_, rfl⟩, rfl, fun _ h => by simp at h⟩

theorem witness_OutcomesBelongToTheirCommands :
    ((Instr.pack 23).wellFormed = true ∧ ∃ t, exec (.pack 23) oneShort = .next t ∧ statusResult t.status = 1) ∧
    (Instr.get8.wellFormed = true ∧ ∃ t, exec .get8 full = .next t ∧ statusResult t.status = 2) ∧
    (Instr.rewind.wellFormed = true ∧ ∃ t, exec .rewind full = .next t) :=
  ⟨⟨by decide, _, rfl, by decide⟩, ⟨by decide, _, rfl, by decide⟩, by decide, _, rfl⟩

/-- Each failing form: PACK at its last scalar, PUT, GET, and UNPACK at its last scalar. -/
theorem witness_CursorHoldsTheFailedAddress :
    ((Instr.pack 23).wellFormed = true ∧ ∃ t, exec (.pack 23) oneShort = .next t ∧ statusResult t.status = 1) ∧
    (Instr.put8.wellFormed = true ∧ ∃ t, exec .put8 full = .next t ∧ statusResult t.status = 1) ∧
    (Instr.get8.wellFormed = true ∧ ∃ t, exec .get8 full = .next t ∧ statusResult t.status = 2) ∧
    ((Instr.unpack 23).wellFormed = true ∧ ∃ t, exec (.unpack 23) oneShort = .next t ∧ statusResult t.status = 2) ∧
    oneShort.cursor.toNat ≤ oneShort.capacity.toNat :=
  ⟨⟨by decide, _, rfl, by decide⟩, ⟨by decide, _, rfl, by decide⟩, ⟨by decide, _, rfl, by decide⟩,
    ⟨by decide, _, rfl, rfl⟩, by decide⟩

theorem witness_NoCommandReadsStatus : ∃ t, exec (.pack 23) oneShort = .next t := ⟨_, rfl⟩

/-- n = 64 stands outside the closed form's range, n = 63 inside. -/
theorem witness_LanePeelingClosedForm : 0 < 64 ∧ 63 < 64 ∧ laneSeq 63 = ([.w32, .w16, .w8], 7) := by decide

theorem witness_ScalarSequenceLength : 64 ≤ 64 ∧ (scalarSeq 63).length = 51 ∧ (scalarSeq 64).length = 16 := by
  decide

theorem witness_PackWritesFromCursorToCursor :
    ((23 : BitVec 7).toNat ≤ 64 ∧ fits.cursor.toNat ≤ fits.capacity.toNat ∧
      fits.cursor.toNat + 2 * (23 : BitVec 7).toNat ≤ fits.capacity.toNat) ∧
    ((0 : BitVec 7).toNat ≤ 64 ∧ full.cursor.toNat ≤ full.capacity.toNat ∧
      full.cursor.toNat + 2 * (0 : BitVec 7).toNat ≤ full.capacity.toNat) ∧
    ((64 : BitVec 7).toNat ≤ 64 ∧ (block 128 1 []).cursor.toNat ≤ (block 128 1 []).capacity.toNat ∧
      (block 128 1 []).capacity.toNat < (block 128 1 []).cursor.toNat + 2 * (64 : BitVec 7).toNat) := by decide

theorem witness_PackWritesTheWireFormat :
    ((23 : BitVec 7).toNat ≤ 64 ∧ masked 23 fits.v = true ∧
      fits.cursor.toNat + 2 * (23 : BitVec 7).toNat ≤ fits.capacity.toNat) ∧
    ((64 : BitVec 7).toNat ≤ 64 ∧ masked 64 (blockFn fun _ => 0xFFFFFFFFFFFFFFFF) = true) := by decide

theorem witness_FailedPackLeavesThePrefix :
    (23 : BitVec 7).toNat ≤ 64 ∧ oneShort.cursor.toNat ≤ oneShort.capacity.toNat ∧
    oneShort.capacity.toNat < oneShort.cursor.toNat + 2 * (23 : BitVec 7).toNat ∧
    masked 23 oneShort.v = true := by decide

/-- T-K28: a value of 8 at width 3, where all 6 bytes fit, and where T-K24's 5 bytes hold the first scalar only. -/
theorem witness_UnmaskedPackBytesAreFree :
    (3 : BitVec 7).toNat ≤ 64 ∧ masked 3 ((block 16 0 []).withV (w1.set 0 8)).v = false ∧
    (block 16 0 []).cursor.toNat ≤ (block 16 0 []).capacity.toNat ∧
    (block 16 0 []).cursor.toNat + 2 * (3 : BitVec 7).toNat ≤ (block 16 0 []).capacity.toNat ∧
    masked 3 ((block 5 0 []).withV (w1.set 0 8)).v = false ∧
    (block 5 0 []).cursor.toNat ≤ (block 5 0 []).capacity.toNat ∧
    (block 5 0 []).capacity.toNat < (block 5 0 []).cursor.toNat + 2 * (3 : BitVec 7).toNat ∧
    ∃ t, exec (.pack 3) ((block 5 0 []).withV (w1.set 0 8)) = .next t ∧
      ((block 5 0 []).withV (w1.set 0 8)).cursor.toNat + 3 < t.cursor.toNat :=
  ⟨by decide, by decide, by decide, by decide, by decide, by decide, by decide, _, rfl, by decide⟩

theorem witness_OneByteShortFailsAtTheLastScalar :
    1 ≤ (23 : BitVec 7).toNat ∧ (23 : BitVec 7).toNat ≤ 64 ∧
    oneShort.cursor.toNat + 2 * (23 : BitVec 7).toNat = oneShort.capacity.toNat + 1 ∧
    oneShort.capacity.toNat < oneShort.cursor.toNat + 2 * (23 : BitVec 7).toNat ∧
    masked 23 oneShort.v = true := by decide

theorem witness_UnpackReadsTheWireFormat :
    ((4 : BitVec 7).toNat ≤ 64 ∧ eight.cursor.toNat + 2 * (4 : BitVec 7).toNat ≤ eight.capacity.toNat) ∧
    ((0 : BitVec 7).toNat ≤ 64 ∧ full.cursor.toNat + 2 * (0 : BitVec 7).toNat ≤ full.capacity.toNat) ∧
    ((64 : BitVec 7).toNat ≤ 64 ∧
      (block 128 0 []).cursor.toNat + 2 * (64 : BitVec 7).toNat ≤ (block 128 0 []).capacity.toNat) := by decide

/-- UNPACK 1 of a written byte and an unwritten one. -/
theorem witness_UnpackReadsUnwrittenBytesAsFreshDraws :
    (1 : BitVec 7).toNat ≤ 64 ∧
    (block 8 0 (bytesFrom 0 [1])).cursor.toNat + 2 * (1 : BitVec 7).toNat ≤
      (block 8 0 (bytesFrom 0 [1])).capacity.toNat ∧
    ∀ k, k < 2 * (1 : BitVec 7).toNat →
      Memory.read [(0, 1), (1, Config.unwrittenByte 0)] ((block 8 0 (bytesFrom 0 [1])).cursor.toNat + k) =
        some (seenByte (block 8 0 (bytesFrom 0 [1])).store (block 8 0 (bytesFrom 0 [1])).cursor.toNat
          (block 8 0 (bytesFrom 0 [1])).draws k) := by
  refine ⟨by decide, by decide, fun k hk => ?_⟩
  have h2 : k < 2 := hk
  match k with
  | 0 => rfl
  | 1 => rfl

theorem witness_UnpackedValuesAreBelowTwoToTheN :
    ∃ t, exec (.unpack 4) eight = .next t ∧ statusResult t.status = 0 := ⟨_, rfl, by decide⟩

theorem witness_FailedUnpackLeavesVUnchanged :
    (23 : BitVec 7).toNat ≤ 64 ∧ oneShort.cursor.toNat ≤ oneShort.capacity.toNat ∧
    oneShort.capacity.toNat < oneShort.cursor.toNat + 2 * (23 : BitVec 7).toNat := by decide

/-- T-U4. -/
theorem witness_WidthFourUsesTheFourBitRule :
    eight.cursor.toNat + 8 ≤ eight.capacity.toNat ∧
    ∀ j, j < 8 → eight.byte (eight.cursor.toNat + j) =
      some ((0xFEDCBA9876543210 : Word).extractLsb' (8 * j) 8) := by decide

/-- T-K8 and T-U4: PACK 4 of 0 to 15, then UNPACK 4 after a REWIND. -/
theorem witness_UnpackOfPackIsTheBlock :
    (4 : BitVec 7).toNat ≤ 64 ∧ masked 4 ((block 8 0 []).withV (blockFn id)).v = true ∧
    ((block 8 0 []).withV (blockFn id)).cursor = 0 ∧
    ∃ t, exec (.pack 4) ((block 8 0 []).withV (blockFn id)) = .next t ∧ statusResult t.status = 0 ∧
      eight.cursor = ((block 8 0 []).withV (blockFn id)).cursor ∧
      eight.capacity = ((block 8 0 []).withV (blockFn id)).capacity ∧
      ∀ a, ((block 8 0 []).withV (blockFn id)).cursor.toNat ≤ a →
        a < ((block 8 0 []).withV (blockFn id)).cursor.toNat + 2 * (4 : BitVec 7).toNat →
        eight.byte a = t.byte a := by
  refine ⟨by decide, by decide, by decide, _, rfl, by decide, by decide, by decide, fun a _ h => ?_⟩
  have h8 : a < 8 := h
  revert a
  decide

theorem witness_CodecWidthAboveSixtyFourIsIllegal :
    64 < (65 : BitVec 7).toNat ∧ 64 < (127 : BitVec 7).toNat := by decide

/-- Each clause at the ends of its range of register numbers: 1 and 15, 3 and 5 beside DATA's 4, 16 and 31. -/
theorem witness_HostAccessesOfRegisters :
    (access (.write 4 7) eight).inputs = .access (.write 4 7) :: [] ∧
    (access (.write 16 7) eight).inputs = .access (.write (BitVec.ofNat 5 (16 + (0 : Fin 16).val)) 7) :: [] ∧
    (access (.write 31 7) eight).inputs = .access (.write (BitVec.ofNat 5 (16 + (15 : Fin 16).val)) 7) :: [] ∧
    (∀ idx ∈ [1, 2, 3, 5, 15], 1 ≤ (idx : RegIndex).toNat ∧ idx.toNat ≤ 15 ∧ idx.toNat ≠ 4 ∧
      (access (.write idx 7) eight).inputs = .access (.write idx 7) :: []) ∧
    (∀ idx ∈ [0, 1, 2, 3, 4, 5, 15, 16, 31],
      (access (.read idx) eight).inputs = .access (.read idx) :: []) ∧
    (5 ≤ (15 : RegIndex).toNat ∧ (15 : RegIndex).toNat ≤ 15) ∧
    (31 : RegIndex).toNat = 16 + (15 : Fin 16).val := by decide

theorem witness_StatusReadAfterCommandSeesItsOutcome :
    (oneShort.withInputs [issueInput 0x1701, .access (.read 1)]).inputs =
      issueInput 0x1701 :: .access (.read 1) :: [] ∧ decode 0x1701 = .ok (.pack 23) := by decide

theorem witness_ResetValues :
    (eight.withInputs [.reset]).inputs = .reset :: [] ∧
    (eight.withInputs [.powerOn]).inputs = .powerOn :: [] := by decide

/-- The first and the last register of the map, and DATA. -/
theorem witness_HostLinesExpandAsWritten :
    (HostReg.cmd = .cmd ∧ (0 : RegIndex) = 0) ∧ (HostReg.data = .data ∧ (4 : RegIndex) = 4) ∧
    ∃ i : Fin 16, HostReg.v 15 = .v i ∧ (31 : RegIndex) = BitVec.ofNat 5 (16 + i.val) :=
  ⟨⟨rfl, rfl⟩, ⟨rfl, rfl⟩, 15, rfl, rfl⟩

/-- PACK 23 in 46 and in 45 bytes, a PUT.64 that just fits and one a byte short, a read. -/
theorem witness_ResetDuringAnAccess :
    (oneShort.withInputs [.resetDuring (.write 0 0x1701)]).inputs = .resetDuring (.write 0 0x1701) :: [] ∧
    (decode 0x303 = .ok (putInstr .w64) ∧ eight.cursor.toNat + Width.w64.bytes ≤ eight.capacity.toNat) ∧
    (decode 0x303 = .ok (putInstr .w64) ∧
      (block 8 1 []).capacity.toNat < (block 8 1 []).cursor.toNat + Width.w64.bytes ∧
      accessExtent (.write 0 0x303) (block 8 1 []) = 0) ∧
    decode 0x1701 = .ok (.pack 23) ∧
    ((∀ w, decode 0x5 ≠ .ok (putInstr w)) ∧ ∀ n, decode 0x5 ≠ .ok (.pack n)) ∧
    (∀ c, Access.read 0 ≠ .write 0 c) ∧
    accessExtent (.write 0 0x1701) fits = 46 ∧ accessExtent (.write 0 0x1701) oneShort = 45 := by
  refine ⟨rfl, by decide, by decide, by decide, ⟨fun w => ?_, fun n => ?_⟩, fun c => ?_, by decide, by decide⟩
  · cases w <;> decide
  · rw [show decode 0x5 = .ok .rewind by decide]; simp
  · simp

theorem witness_OnlyPutAndPackChangeStore :
    (issue 0x1702 oneShort).inputs = issueInput 0x1702 :: [] ∧ (∃ t, step (issue 0x1702 oneShort) = .next t) ∧
    (∀ c w, decode c = .ok (putInstr w) → issueInput 0x1702 ≠ issueInput c) ∧
    (∀ c n, decode c = .ok (.pack n) → issueInput 0x1702 ≠ issueInput c) ∧
    (∀ a, issueInput 0x1702 ≠ .resetDuring a) ∧ issueInput 0x1702 ≠ .powerOn := by
  have hd : decode 0x1702 = .ok (.unpack 23) := by decide
  refine ⟨rfl, ⟨_, rfl⟩, fun c w h e => ?_, fun c n h e => ?_, fun a => by simp [issueInput], by decide⟩
  · simp only [issueInput, Input.access.injEq, Access.write.injEq, true_and] at e
    rw [← e, hd] at h
    cases w <;> simp [putInstr] at h
  · simp only [issueInput, Input.access.injEq, Access.write.injEq, true_and] at e
    rw [← e, hd] at h
    simp at h

theorem witness_RegistersHaveTheirWriters :
    (∃ t, exec (.pack 23) oneShort = .next t) ∧ (∃ t, exec .clrstat full = .next t) ∧
    (∀ n, Instr.pack 23 ≠ .unpack n) ∧ (∀ w, Instr.pack 23 ≠ getInstr w) ∧ Instr.pack 23 ≠ .rewind :=
  ⟨⟨_, rfl⟩, ⟨_, rfl⟩, fun _ => by simp, fun w => by cases w <;> simp [getInstr], by decide⟩

theorem witness_CommandsWriteOnlyTheirExtent :
    (∃ t, exec (.pack 23) oneShort = .next t) ∧ writeExtent (.pack 23) oneShort = 45 ∧
    writeExtent (.pack 23) fits = 46 ∧ writeExtent .put64 eight = 8 ∧ writeExtent .put8 full = 0 :=
  ⟨⟨_, rfl⟩, by decide, by decide, by decide, by decide⟩

theorem witness_CursorIsMonotonicAndBounded :
    (issue 0x3 full).inputs = .access (.write 0 0x3) :: [] ∧
    (issue 0x3 full).cursor.toNat ≤ (issue 0x3 full).capacity.toNat ∧
    (∃ t, step (issue 0x3 full) = .next t) ∧
    ∀ c, decode c = .ok .rewind → Access.write 0 0x3 ≠ .write 0 c := by
  refine ⟨rfl, by decide, ⟨_, rfl⟩, fun c h e => ?_⟩
  simp only [Access.write.injEq, true_and] at e
  rw [← e] at h
  exact absurd h (by decide)

theorem witness_CapacityNeverChanges : ∃ t, step (full.withInputs [.powerOn]) = .next t := ⟨_, rfl⟩

theorem witness_EveryStepKeepsTheInvariant :
    (issue 0x303 eight).Inv ∧ ∃ t, step (issue 0x303 eight) = .next t :=
  ⟨⟨by decide, by decide, by decide, by decide⟩, _, rfl⟩

end Sys2Proof.Tests
end

/-! ## The rules about the state: what every command, access and step keeps -/

section
namespace Sys2Proof.Machine

/-! ### Running the model -/

/-- With an input pending, a step performs it on the state from which it was taken. -/
theorem step_of_inputs {s : State} {x : Input} {rest : List Input} (h : s.inputs = x :: rest) :
    step s = performInput x (s.withInputs rest) := by
  simp only [step, performNext, h]

/-- A width of 65 or more makes PACK and UNPACK illegal commands (log 12). -/
theorem exec_of_wide {i : Instr} {n : BitVec 7} (hi : i = .pack n ∨ i = .unpack n) (hn : 64 < n.toNat)
    (s : State) : exec i s = .next (illegalCommand s) := by
  have hl : legalBitWidth n = false := decide_eq_false (Nat.not_le.mpr hn)
  rcases hi with rfl | rfl
  · simp [exec, execPack, hl]
  · simp [exec, execUnpack, hl]

/-! ### The buffer commands as sequences of puts or gets

PACK is one already (`packCommand_eq`). -/

theorem putCommand_eq_putAll (w : Width) (s : State) :
    ∃ o, putCommand w s = endOfCommand o (putAll [⟨w, s.data⟩] s).2 := by
  simp only [putCommand, putAll]
  cases put w s.data s with
  | none => exact ⟨_, rfl⟩
  | some t => exact ⟨_, rfl⟩

theorem getCommand_eq_getAll (w : Width) (s : State) :
    ∃ o x, getCommand w s = endOfCommand o ((getAll [w] s).2.withData x) := by
  simp only [getCommand, getAll]
  cases get w s with
  | none => exact ⟨.outOfRange, s.data, rfl⟩
  | some r => exact ⟨.ok, r.1, rfl⟩

theorem unpackCommand_eq_getAll (n : Nat) (s : State) :
    ∃ o v, unpackCommand n s = endOfCommand o ((getAll (scalarSeq n) s).2.withV v) := by
  rcases unpackCommand_cases n s with ⟨-, xs, -, h⟩ | ⟨-, h⟩
  · exact ⟨_, _, h⟩
  · exact ⟨_, (getAll (scalarSeq n) s).2.v, h⟩

/-! ### The registers a command leaves alone -/

/-- Puts and gets leave V, DATA and the surroundings as they were. -/
theorem putAll_frame (cs : List Scalar) (s : State) :
    (putAll cs s).2.v = s.v ∧ (putAll cs s).2.data = s.data ∧ SurroundingsKept s (putAll cs s).2 := by
  rw [(putAll_effect cs s).frame]
  exact ⟨rfl, rfl, rfl, rfl, rfl⟩

theorem getAll_frame (ws : List Width) (s : State) :
    (getAll ws s).2.v = s.v ∧ (getAll ws s).2.data = s.data ∧ SurroundingsKept s (getAll ws s).2 := by
  rw [(getAll_effect ws s).frame]
  exact ⟨rfl, rfl, rfl, rfl, rfl⟩

/-- Only UNPACK writes V, only GET.W writes DATA, and no command touches the surroundings (R20). -/
theorem exec_frame {i : Instr} {s t : State} (h : exec i s = .next t) :
    ((∀ n, i ≠ .unpack n) → t.v = s.v) ∧ ((∀ w, i ≠ getInstr w) → t.data = s.data) ∧ SurroundingsKept s t := by
  rcases exec_cases h with ⟨w, -, rfl⟩ | ⟨w, rfl, rfl⟩ | ⟨n, -, -, rfl⟩ | ⟨n, rfl, -, rfl⟩ | ⟨-, rfl⟩ |
    ⟨-, rfl⟩ | ⟨n, -, -, rfl⟩
  · obtain ⟨o, e⟩ := putCommand_eq_putAll w s
    obtain ⟨hv, hdata, hkept⟩ := putAll_frame [⟨w, s.data⟩] s
    rw [e]
    exact ⟨fun _ => hv, fun _ => hdata, hkept⟩
  · obtain ⟨o, x, e⟩ := getCommand_eq_getAll w s
    obtain ⟨hv, -, hkept⟩ := getAll_frame [w] s
    rw [e]
    exact ⟨fun _ => hv, fun hget => absurd rfl (hget w), hkept⟩
  · obtain ⟨hv, hdata, hkept⟩ :=
      putAll_frame (packPlan n.toNat s).1 (s.withDraws (packPlan n.toNat s).2)
    rw [packCommand_eq]
    exact ⟨fun _ => hv, fun _ => hdata, hkept⟩
  · obtain ⟨o, v, e⟩ := unpackCommand_eq_getAll n.toNat s
    obtain ⟨-, hdata, hkept⟩ := getAll_frame (scalarSeq n.toNat) s
    rw [e]
    exact ⟨fun hunpack => absurd rfl (hunpack n), fun _ => hdata, hkept⟩
  · exact ⟨fun _ => rfl, fun _ => rfl, rfl, rfl, rfl⟩
  · exact ⟨fun _ => rfl, fun _ => rfl, rfl, rfl, rfl⟩
  · exact ⟨fun _ => rfl, fun _ => rfl, rfl, rfl, rfl⟩

/-! ### Going on in the buffer

What happens between two rewinds or resets moves CURSOR up, within CAPACITY, and writes bytes below the new CURSOR
only. -/

/-- `t` has gone on in the buffer from `s`: CURSOR has moved up, by no more than the bytes remaining; the cells
written lie below it; CAPACITY, the canonical form of STORE and the zero reserved bits of STATUS are kept. -/
structure Advances (s t : State) : Prop where
  cursor_ge : s.cursor.toNat ≤ t.cursor.toNat
  cursor_le : t.cursor.toNat ≤ s.cursor.toNat + s.remaining
  capacity : t.capacity = s.capacity
  wf : s.store.wf → t.store.wf
  cells : ∀ c ∈ t.store, c ∈ s.store ∨ c.1 < t.cursor.toNat
  reserved : statusReservedZero s.status = true → statusReservedZero t.status = true

namespace Advances

theorem refl (s : State) : Advances s s :=
  ⟨Nat.le_refl _, Nat.le_add_right _ _, rfl, id, fun _ => .inl, id⟩

theorem endOfCommand {s t : State} (h : Advances s t) (o : CommandOutcome) :
    Advances s (endOfCommand o t) :=
  { h with reserved := fun hs => statusReservedZero_statusAfter (h.reserved hs) o }

theorem withV {s t : State} (h : Advances s t) (v : Block) : Advances s (t.withV v) := { h with }

theorem withData {s t : State} (h : Advances s t) (d : Word) : Advances s (t.withData d) := { h with }

theorem of_withDraws {s t : State} {d : Nat} (h : Advances (s.withDraws d) t) : Advances s t := { h with }

/-- CURSOR stays in 0..CAPACITY (R34). -/
theorem cursor_le_capacity {s t : State} (h : Advances s t) (hs : s.cursor.toNat ≤ s.capacity.toNat) :
    t.cursor.toNat ≤ t.capacity.toNat := by
  have hle := h.cursor_le
  unfold State.remaining at hle
  rw [h.capacity]
  omega

theorem keeps_inv {s t : State} (h : Advances s t) (hs : s.Inv) : t.Inv := by
  have hcur := h.cursor_le_capacity hs.cursor_le
  refine ⟨hcur, h.wf hs.store_wf, fun c hc => ?_, h.reserved hs.status_reserved⟩
  rcases h.cells c hc with hold | hnew
  · rw [h.capacity]
    exact hs.store_below c hold
  · omega

end Advances

theorem putAll_advances (cs : List Scalar) (s : State) : Advances s (putAll cs s).2 := by
  have e := putAll_effect cs s
  have hcur := e.cursor
  have hfit := totalBytes_take_fitCount_le (widthsOf cs) s.remaining
  obtain ⟨-, -, hcap, -, -⟩ := putAll_frame cs s
  refine ⟨by omega, by omega, hcap, e.wf, fun c hc => (e.cells c hc).imp_right And.right, ?_⟩
  rw [e.frame]
  exact id

theorem getAll_advances (ws : List Width) (s : State) : Advances s (getAll ws s).2 := by
  have e := getAll_effect ws s
  have hcur := e.cursor
  have hfit := totalBytes_take_fitCount_le ws s.remaining
  have hstore : (getAll ws s).2.store = s.store := by
    rw [e.frame]
    rfl
  obtain ⟨-, -, hcap, -, -⟩ := getAll_frame ws s
  refine ⟨by omega, by omega, hcap, ?_, ?_, ?_⟩
  · rw [hstore]
    exact id
  · rw [hstore]
    exact fun _ => .inl
  · rw [e.frame]
    exact id

/-- CLRSTAT's clearing sets no reserved bit (R140). -/
theorem statusReservedZero_clearSticky {st : Word} (h : statusReservedZero st = true) :
    statusReservedZero (clearSticky st) = true := by
  rw [statusReservedZero_iff] at h ⊢
  intro b h2 h3
  rw [clearSticky_getLsbD, h b h2 h3, Bool.false_and]

theorem illegalCommand_advances (s : State) : Advances s (illegalCommand s) :=
  (Advances.refl s).endOfCommand .illegalCommand

/-- Every command but REWIND goes on in the buffer. -/
theorem exec_advances {i : Instr} {s t : State} (h : exec i s = .next t) (hi : i ≠ .rewind) : Advances s t := by
  rcases exec_cases h with ⟨w, -, rfl⟩ | ⟨w, -, rfl⟩ | ⟨n, -, -, rfl⟩ | ⟨n, -, -, rfl⟩ | ⟨hrewind, -⟩ |
    ⟨-, rfl⟩ | ⟨n, -, -, rfl⟩
  · obtain ⟨o, e⟩ := putCommand_eq_putAll w s
    exact e ▸ (putAll_advances _ s).endOfCommand o
  · obtain ⟨o, x, e⟩ := getCommand_eq_getAll w s
    exact e ▸ ((getAll_advances _ s).withData x).endOfCommand o
  · exact packCommand_eq n.toNat s ▸ (putAll_advances _ _).of_withDraws.endOfCommand _
  · obtain ⟨o, v, e⟩ := unpackCommand_eq_getAll n.toNat s
    exact e ▸ ((getAll_advances _ s).withV v).endOfCommand o
  · exact absurd hrewind hi
  · have hclear : Advances s (s.withStatus (clearSticky s.status)) :=
      { Advances.refl s with reserved := statusReservedZero_clearSticky }
    exact hclear.endOfCommand .ok
  · exact illegalCommand_advances s

/-- Everything an input can do to the buffer: it goes on, or it is one of the four that send CURSOR to 0. -/
theorem performInput_advances_or {x : Input} {s t : State} (h : performInput x s = .next t) :
    Advances s t ∨
    (∃ c, x = issueInput c ∧ decode c = .ok .rewind ∧ t = endOfCommand .ok (rewind s)) ∨
    (x = .reset ∧ t = hardwareReset s) ∨
    (∃ a, x = .resetDuring a ∧ t = resetDuringAccess a s) ∨
    (x = .powerOn ∧ t = powerOnReset s) := by
  rcases performInput_cases h with ⟨c, i, hx, hdec, hexec⟩ | ⟨c, e, -, -, rfl⟩ | ⟨idx, -, rfl⟩ |
    ⟨idx, y, -, -, rfl⟩ | ⟨idx, y, i, -, -, rfl⟩ | ⟨idx, y, -, -, rfl⟩ | hresets
  · by_cases hi : i = .rewind
    · subst hi
      exact .inr (.inl ⟨c, hx, hdec, (Host.Outcome.next.inj hexec).symm⟩)
    · exact .inl (exec_advances hexec hi)
  · exact .inl (illegalCommand_advances s)
  · exact .inl { Advances.refl s with }
  · exact .inl ((Advances.refl s).withData y)
  · exact .inl ((Advances.refl s).withV _)
  · exact .inl (Advances.refl _)
  · exact .inr (.inr hresets)

/-! ### The invariant -/

/-- At CURSOR 0 and STATUS 0 the invariant is a matter of STORE alone. -/
theorem inv_of_start {s : State} (hcur : s.cursor = 0) (hst : s.status = 0) (hwf : s.store.wf)
    (hbelow : ∀ c ∈ s.store, c.1 < s.capacity.toNat) : s.Inv :=
  ⟨by rw [hcur]; exact Nat.zero_le _, hwf, hbelow, by rw [hst]; decide⟩

theorem rewind_keeps_inv {s : State} (h : s.Inv) : (endOfCommand .ok (rewind s)).Inv :=
  ⟨Nat.zero_le _, h.store_wf, h.store_below, statusReservedZero_statusAfter h.status_reserved _⟩

theorem hardwareReset_keeps_inv {s : State} (h : s.Inv) : (hardwareReset s).Inv :=
  inv_of_start rfl rfl h.store_wf h.store_below

/-- A command that is interrupted would have written within CAPACITY (R171). -/
theorem writeExtent_le_remaining (i : Instr) (s : State) : writeExtent i s ≤ s.remaining := by
  cases i with
  | pack n => exact Nat.min_le_right _ _
  | put8 | put16 | put32 | put64 =>
    simp only [writeExtent]
    split <;> omega
  | unpack n => exact Nat.zero_le _
  | get8 | get16 | get32 | get64 | rewind | clrstat => exact Nat.zero_le _

theorem accessExtent_le_remaining (a : Access) (s : State) : accessExtent a s ≤ s.remaining := by
  unfold accessExtent
  split
  · exact Nat.zero_le _
  · split
    · exact writeExtent_le_remaining _ s
    · exact Nat.zero_le _

theorem interruptBytes_wf {m : Memory} (h : m.wf) (a d k : Nat) : (interruptBytes m a d k).wf := by
  induction k with
  | zero => exact h
  | succ k ih =>
    simp only [interruptBytes]
    split
    · exact ih
    · exact Memory.wf_write ih _ _

/-- The cells after an interrupted command are old ones and ones among the `k` bytes (R171). -/
theorem interruptBytes_mem {m : Memory} {a d k : Nat} {c : Host.Cell} (h : c ∈ interruptBytes m a d k) :
    c.1 < a + k ∨ c ∈ m := by
  induction k with
  | zero => exact .inr h
  | succ k ih =>
    have hmono : c ∈ interruptBytes m a d k → c.1 < a + (k + 1) ∨ c ∈ m :=
      fun hc => (ih hc).imp_left fun hlt => by omega
    simp only [interruptBytes] at h
    split at h
    · exact hmono h
    · rcases Memory.mem_write h with rfl | hold
      · exact .inl (Nat.lt_succ_self _)
      · exact hmono hold

theorem resetDuringAccess_keeps_inv {s : State} (h : s.Inv) (a : Access) : (resetDuringAccess a s).Inv := by
  refine inv_of_start rfl rfl (interruptBytes_wf h.store_wf _ _ _) fun c hc => ?_
  rcases interruptBytes_mem hc with hnew | hold
  · have hextent := accessExtent_le_remaining a s
    have hcur := h.cursor_le
    show c.1 < s.capacity.toNat
    unfold State.remaining at hextent
    omega
  · exact h.store_below c hold

theorem powerOnReset_inv (s : State) : (powerOnReset s).Inv :=
  inv_of_start rfl rfl List.Pairwise.nil (List.forall_mem_nil _)

theorem powerOn_inv (capacity : Word) : (State.powerOn capacity).Inv :=
  inv_of_start rfl rfl List.Pairwise.nil (List.forall_mem_nil _)

theorem performInput_keeps_inv {x : Input} {s t : State} (hs : s.Inv) (h : performInput x s = .next t) :
    t.Inv := by
  rcases performInput_advances_or h with hadv | ⟨c, -, -, rfl⟩ | ⟨-, rfl⟩ | ⟨a, -, rfl⟩ | ⟨-, rfl⟩
  · exact hadv.keeps_inv hs
  · exact rewind_keeps_inv hs
  · exact hardwareReset_keeps_inv hs
  · exact resetDuringAccess_keeps_inv hs a
  · exact powerOnReset_inv s

/-- Settles O48: the invariant does not speak of the pending inputs, and every input keeps it. -/
theorem everyStepKeepsTheInvariant : Obligations.EveryStepKeepsTheInvariant := by
  intro s t hs h
  rcases step_cases h with ⟨-, rfl⟩ | ⟨x, rest, -, hperform⟩
  · exact hs
  · have hrest : (s.withInputs rest).Inv := { hs with }
    exact performInput_keeps_inv hrest hperform

/-- Settles O47. -/
theorem invariantHoldsAtReset : Obligations.InvariantHoldsAtReset :=
  ⟨powerOn_inv, powerOn_inv Config.capacity⟩

/-! ### CURSOR, CAPACITY and the writers of the registers -/

/-- Settles O43: the frame of `exec`, and that every command but REWIND goes on in the buffer. -/
theorem registersHaveTheirWriters : Obligations.RegistersHaveTheirWriters := by
  intro i s t h
  obtain ⟨hv, hdata, hkept⟩ := exec_frame h
  refine ⟨hv, hdata, fun hi => (exec_advances h hi).cursor_ge, ?_, hkept⟩
  rintro rfl
  rw [← Host.Outcome.next.inj h]
  rfl

/-- Settles O45: an access goes on in the buffer or issues REWIND. -/
theorem cursorIsMonotonicAndBounded : Obligations.CursorIsMonotonicAndBounded := by
  intro s t a rest hin hs h
  rw [step_of_inputs hin] at h
  rcases performInput_advances_or h with hadv | ⟨c, hx, hdec, rfl⟩ | ⟨hx, -⟩ | ⟨b, hx, -⟩ | ⟨hx, -⟩
  · exact ⟨hadv.cursor_le_capacity hs, fun _ => hadv.cursor_ge⟩
  · exact ⟨Nat.zero_le _, fun hno => absurd (Input.access.inj hx) (hno c hdec)⟩
  · cases hx
  · cases hx
  · cases hx

/-- Settles O46: going on in the buffer keeps CAPACITY, and so do REWIND and every reset. -/
theorem capacityNeverChanges : Obligations.CapacityNeverChanges := by
  intro s t h
  rcases step_cases h with ⟨-, rfl⟩ | ⟨x, rest, -, hperform⟩
  · rfl
  · rcases performInput_advances_or hperform with hadv | ⟨c, -, -, rfl⟩ | ⟨-, rfl⟩ | ⟨a, -, rfl⟩ | ⟨-, rfl⟩
    · exact hadv.capacity
    · rfl
    · rfl
    · rfl
    · rfl

/-! ### Reset values -/

/-- Every value of the reset block is 0 (R33). -/
theorem replicate_zero_get (i : Fin 16) : (Vector.replicate 16 (0 : Word))[i] = 0 := by simp

/-- Settles O40: the fields of the two resets and of power-on, and that an empty STORE reads unwritten. -/
theorem resetValues : Obligations.ResetValues := by
  refine ⟨fun s rest hin => ?_, fun s rest hin => ?_, replicate_zero_get, rfl, rfl, rfl, rfl, Memory.read_nil⟩
  · exact ⟨_, step_of_inputs hin, replicate_zero_get, rfl, rfl, rfl, rfl, rfl⟩
  · exact ⟨_, step_of_inputs hin, replicate_zero_get, rfl, rfl, rfl, rfl, Memory.read_nil⟩

/-! ### What a command does not read -/

/-- `MemWrite` looks at the low `k` bytes of the scalar only (R42). -/
theorem memWrite_congr (m : Memory) (a : Nat) {k : Nat} {x y : Word} (h : ∀ j, j < k → byteOf x j = byteOf y j) :
    memWrite m a k x = memWrite m a k y := by
  induction k with
  | zero => rfl
  | succ k ih => rw [memWrite, memWrite, h k (Nat.lt_succ_self k), ih fun j hj => h j (by omega)]

/-- Words that agree on the low `W` bits agree on the bytes of a `W`-bit scalar. -/
theorem byteOf_eq_of_low_bits {w : Width} {x y : Word} (h : ∀ b, b < w.bits → x.getLsbD b = y.getLsbD b) {j : Nat}
    (hj : j < w.bytes) : byteOf x j = byteOf y j := by
  apply BitVec.eq_of_getLsbD_eq
  intro b hb
  have hlow : 8 * j + b < w.bits := by
    rw [w.bits_eq]
    omega
  rw [byteOf_getLsbD, byteOf_getLsbD, h _ hlow]

/-- Settles O14: the bytes PUT.W stores are those of the low `W` bits of DATA. -/
theorem putIgnoresDataAboveItsWidth : Obligations.PutIgnoresDataAboveItsWidth := by
  intro w s t d hd h
  have hwrite : memWrite s.store s.cursor.toNat w.bytes d = memWrite s.store s.cursor.toNat w.bytes s.data :=
    memWrite_congr _ _ fun j hj => byteOf_eq_of_low_bits hd hj
  rw [exec_putInstr] at h ⊢
  obtain rfl := Host.Outcome.next.inj h
  rcases put_cases w s.data s with ⟨hlt, hput⟩ | ⟨hge, hput⟩
  · have hputd : put w d (s.withData d) = none := if_pos hlt
    simp only [putCommand, State.withData_data, hput, hputd]
    rfl
  · have hputd : put w d (s.withData d) = some _ := if_neg (Nat.not_lt.mpr hge)
    simp only [putCommand, State.withData_data, hput, hputd]
    rw [← hwrite]
    rfl

/-- `f` does the same with any other STATUS in its place, to everything but STATUS, and leaves the same
RESULT. -/
def IgnoresStatus (f : State → State) : Prop :=
  ∀ s st, ∃ st', f (s.withStatus st) = (f s).withStatus st' ∧ statusResult st' = statusResult (f s).status

theorem IgnoresStatus.exec {i : Instr} {f : State → State} (hf : IgnoresStatus f)
    (hexec : ∀ s, exec i s = .next (f s)) (s : State) (st : Word) :
    ∃ st', exec i (s.withStatus st) = .next ((f s).withStatus st') ∧
      statusResult st' = statusResult (f s).status := by
  obtain ⟨st', heq, hres⟩ := hf s st
  exact ⟨st', by rw [hexec, heq], hres⟩

/-- It is enough that before its end the command carries another STATUS along. -/
theorem ignoresStatus_of_end {f : State → State}
    (h : ∀ s st, ∃ o u st₁, f s = endOfCommand o u ∧ f (s.withStatus st) = endOfCommand o (u.withStatus st₁)) :
    IgnoresStatus f := by
  intro s st
  obtain ⟨o, u, st₁, hs, hst⟩ := h s st
  refine ⟨statusAfter o st₁, by rw [hs, hst]; rfl, ?_⟩
  rw [hs, endOfCommand_status, statusResult_statusAfter, statusResult_statusAfter]

theorem put_withStatus (w : Width) (x : Word) (s : State) (st : Word) :
    put w x (s.withStatus st) = (put w x s).map (·.withStatus st) := by
  rcases put_cases w x s with ⟨hlt, hput⟩ | ⟨hge, hput⟩
  · rw [hput]
    exact if_pos hlt
  · rw [hput]
    exact if_neg (Nat.not_lt.mpr hge)

theorem get_withStatus (w : Width) (s : State) (st : Word) :
    get w (s.withStatus st) = (get w s).map fun r => (r.1, r.2.withStatus st) := by
  rcases get_cases w s with ⟨hlt, hget⟩ | ⟨hge, hget⟩
  · rw [hget]
    exact if_pos hlt
  · rw [hget]
    exact if_neg (Nat.not_lt.mpr hge)

theorem putAll_withStatus (cs : List Scalar) (s : State) (st : Word) :
    putAll cs (s.withStatus st) = ((putAll cs s).1, (putAll cs s).2.withStatus st) := by
  induction cs generalizing s with
  | nil => rfl
  | cons c cs ih =>
    simp only [putAll, put_withStatus]
    cases put c.width c.value s with
    | none => rfl
    | some t => exact ih t

theorem getAll_withStatus (ws : List Width) (s : State) (st : Word) :
    getAll ws (s.withStatus st) = ((getAll ws s).1, (getAll ws s).2.withStatus st) := by
  induction ws generalizing s with
  | nil => rfl
  | cons w ws ih =>
    simp only [getAll, get_withStatus]
    cases get w s with
    | none => rfl
    | some r => simp only [Option.map_some, ih]

theorem putCommand_ignoresStatus (w : Width) : IgnoresStatus (putCommand w) := by
  refine ignoresStatus_of_end fun s st => ?_
  simp only [putCommand, State.withStatus_data, put_withStatus]
  cases put w s.data s with
  | none => exact ⟨_, s, st, rfl, rfl⟩
  | some t => exact ⟨_, t, st, rfl, rfl⟩

theorem getCommand_ignoresStatus (w : Width) : IgnoresStatus (getCommand w) := by
  refine ignoresStatus_of_end fun s st => ?_
  simp only [getCommand, get_withStatus]
  cases get w s with
  | none => exact ⟨_, s, st, rfl, rfl⟩
  | some r => exact ⟨_, r.2.withData r.1, st, rfl, rfl⟩

theorem packCommand_ignoresStatus (n : Nat) : IgnoresStatus (packCommand n) := by
  refine ignoresStatus_of_end fun s st => ⟨_, _, st, packCommand_eq n s, ?_⟩
  rw [packCommand_eq]
  have hputs := putAll_withStatus (packPlan n s).1 (s.withDraws (packPlan n s).2) st
  exact congrArg (fun r => endOfCommand _ r.2) hputs

theorem unpackCommand_ignoresStatus (n : Nat) : IgnoresStatus (unpackCommand n) := by
  refine ignoresStatus_of_end fun s st => ?_
  simp only [unpackCommand, getAll_withStatus]
  rcases getAll (scalarSeq n) s with ⟨_ | xs, t⟩
  · exact ⟨_, t, st, rfl, rfl⟩
  · exact ⟨_, t.withV (assemble n xs), st, rfl, rfl⟩

theorem rewind_ignoresStatus : IgnoresStatus fun s => endOfCommand .ok (rewind s) :=
  ignoresStatus_of_end fun s st => ⟨_, rewind s, st, rfl, rfl⟩

theorem illegalCommand_ignoresStatus : IgnoresStatus illegalCommand :=
  ignoresStatus_of_end fun s st => ⟨_, s, st, rfl, rfl⟩

/-- CLRSTAT clears whatever STATUS it finds, so that the STATUS carried along is the cleared one. -/
theorem clrstat_ignoresStatus :
    IgnoresStatus fun s => endOfCommand .ok (s.withStatus (clearSticky s.status)) :=
  ignoresStatus_of_end fun s st => ⟨_, s.withStatus (clearSticky s.status), clearSticky st, rfl, rfl⟩

/-- Settles O20: each command's body ignores STATUS, CLRSTAT's included, which only clears it. -/
theorem noCommandReadsStatus : Obligations.NoCommandReadsStatus := by
  intro i s t st h
  rcases exec_cases h with ⟨w, rfl, rfl⟩ | ⟨w, rfl, rfl⟩ | ⟨n, rfl, hn, rfl⟩ | ⟨n, rfl, hn, rfl⟩ | ⟨rfl, rfl⟩ |
    ⟨rfl, rfl⟩ | ⟨n, hi, hn, rfl⟩
  · exact (putCommand_ignoresStatus w).exec (exec_putInstr w) s st
  · exact (getCommand_ignoresStatus w).exec (exec_getInstr w) s st
  · exact (packCommand_ignoresStatus n.toNat).exec (exec_pack hn) s st
  · exact (unpackCommand_ignoresStatus n.toNat).exec (exec_unpack hn) s st
  · exact rewind_ignoresStatus.exec (fun _ => rfl) s st
  · exact clrstat_ignoresStatus.exec (fun _ => rfl) s st
  · exact illegalCommand_ignoresStatus.exec (exec_of_wide hi hn) s st

end Sys2Proof.Machine
end

/-! ## Buffer storage: what is read back, and which bytes an input may change -/

section
namespace Sys2Proof.Machine

/-! ### A scalar with room -/

/-- PUT.W with room for its scalar appends it and ends OK (R80). -/
theorem exec_put_of_room {w : Width} {s : State} (hroom : s.cursor.toNat + w.bytes ≤ s.capacity.toNat) :
    exec (putInstr w) s =
      .next (endOfCommand .ok ((s.withStore (memWrite s.store s.cursor.toNat w.bytes s.data)).advance w)) := by
  have hfits := (bytes_le_remaining_iff s w.bytes_pos).mpr hroom
  rw [exec_putInstr]
  rcases putCommand_cases w s with ⟨hlt, -⟩ | ⟨-, hput⟩
  · omega
  · rw [hput]

/-- GET.W with its bytes remaining leaves in DATA the bytes a read sees from CURSOR on, zero-extended; it takes one
draw for each unwritten byte and ends OK (R50, R85). -/
theorem exec_get_of_room {w : Width} {s : State} (hroom : s.cursor.toNat + w.bytes ≤ s.capacity.toNat) :
    ∃ x, exec (getInstr w) s = .next (endOfCommand .ok
        (((s.withDraws (s.draws + unwrittenBefore s.store s.cursor.toNat w.bytes)).advance w).withData x)) ∧
      (∀ j, j < w.bytes → byteOf x j = seenByte s.store s.cursor.toNat s.draws j) ∧
      (∀ b, w.bits ≤ b → x.getLsbD b = false) := by
  have hfits := (bytes_le_remaining_iff s w.bytes_pos).mpr hroom
  rcases getCommand_cases w s with ⟨hlt, -⟩ | ⟨-, hget⟩
  · omega
  · refine ⟨_, by rw [exec_getInstr, hget, memRead_draws], fun j hj => byteOf_memRead _ w.bytes_le hj, ?_⟩
    intro b hb
    rw [w.bits_eq] at hb
    exact memRead_high w.bytes_le hb

theorem seenByte_of_unwritten {m : Memory} {a j : Nat} (h : m.read (a + j) = none) (d : Nat) :
    seenByte m a d j = Config.unwrittenByte (d + unwrittenBefore m a j) := by
  rw [seenByte, h, Option.getD_none]

/-- Settles O11: an unwritten byte is seen as the draw of its place. -/
theorem unwrittenBytesReadAsFreshDraws : Obligations.UnwrittenBytesReadAsFreshDraws := by
  intro w s hroom
  obtain ⟨x, hexec, hbytes, -⟩ := exec_get_of_room hroom
  refine ⟨_, hexec, rfl, fun j hj hnone => ?_⟩
  exact (hbytes j hj).trans (seenByte_of_unwritten hnone s.draws)

/-! ### Reading back a stored scalar -/

/-- A read that lies within a stored scalar sees the scalar's bytes. -/
theorem seenByte_memWrite (m : Memory) (a d : Nat) {k i j : Nat} (v : Word) (h : i + j < k) :
    seenByte (memWrite m a k v) (a + i) d j = byteOf v (i + j) := by
  apply seenByte_of_written
  rw [memWrite_read, if_pos (by omega)]
  congr 2
  omega

/-- A GET that lies within the scalar a PUT stored, from its byte `j` on, ends OK with the scalar's bytes,
zero-extended (R43). -/
theorem get_within_put {w w' : Width} {s t : State} {j : Nat} (hroom : s.cursor.toNat + w.bytes ≤ s.capacity.toNat)
    (hin : j + w'.bytes ≤ w.bytes) (hput : exec (putInstr w) s = .next t) :
    ∃ u, exec (getInstr w') (t.withCursor (s.cursor + BitVec.ofNat 64 j)) = .next u ∧ statusResult u.status = 0 ∧
      (∀ q, q < w'.bytes → byteOf u.data q = byteOf s.data (j + q)) ∧
      (∀ b, w'.bits ≤ b → u.data.getLsbD b = false) := by
  rw [exec_put_of_room hroom] at hput
  have ht := Host.Outcome.next.inj hput
  have hstore : t.store = memWrite s.store s.cursor.toNat w.bytes s.data := ht ▸ rfl
  have hcap : t.capacity = s.capacity := ht ▸ rfl
  have hplace : (s.cursor + BitVec.ofNat 64 j).toNat = s.cursor.toNat + j := by
    have hlt := s.capacity.isLt
    have hpos := w'.bytes_pos
    rw [BitVec.toNat_add, BitVec.toNat_ofNat]
    omega
  obtain ⟨x, hget, hbytes, hhigh⟩ := exec_get_of_room (w := w') (s := t.withCursor (s.cursor + BitVec.ofNat 64 j))
    (by rw [State.withCursor_cursor, State.withCursor_capacity, hplace, hcap]; omega)
  refine ⟨_, hget, statusResult_statusAfter _ _, fun q hq => (hbytes q hq).trans ?_, hhigh⟩
  rw [State.withCursor_store, State.withCursor_cursor, hstore, hplace]
  exact seenByte_memWrite _ _ _ _ (by omega)

/-- Words that agree on the bytes of a `W`-bit scalar agree on the low `W` bits. -/
theorem getLsbD_eq_of_byteOf_eq {w : Width} {x y : Word} (h : ∀ j, j < w.bytes → byteOf x j = byteOf y j) {b : Nat}
    (hb : b < w.bits) : x.getLsbD b = y.getLsbD b := by
  rw [w.bits_eq] at hb
  have hbit := congrArg (BitVec.getLsbD · (b % 8)) (h (b / 8) (by omega))
  simpa only [byteOf_getLsbD, Nat.div_add_mod, Nat.mod_lt b (by decide : 8 > 0), decide_true, Bool.true_and]
    using hbit

/-- A scalar with nothing above its lowest byte is that byte, zero-extended. -/
theorem eq_setWidth_byteOf_zero {x : Word} (h : ∀ b, 8 ≤ b → x.getLsbD b = false) :
    x = (byteOf x 0).setWidth 64 := by
  apply BitVec.eq_of_getLsbD_eq
  intro b hb
  rw [BitVec.getLsbD_setWidth, byteOf_getLsbD, Nat.mul_zero, Nat.zero_add, decide_eq_true hb, Bool.true_and]
  by_cases hlow : b < 8
  · rw [decide_eq_true hlow, Bool.true_and]
  · rw [decide_eq_false hlow, Bool.false_and, h b (Nat.not_lt.mp hlow)]

/-- Settles O12: what is read is the whole of the scalar stored. -/
theorem putThenGetReturnsTheScalar : Obligations.PutThenGetReturnsTheScalar := by
  intro w s t hroom hput
  obtain ⟨u, hget, hok, hbytes, hhigh⟩ := get_within_put (j := 0) hroom (Nat.zero_add w.bytes).le hput
  have hstart : s.cursor + BitVec.ofNat 64 0 = s.cursor := BitVec.add_zero s.cursor
  rw [hstart] at hget
  refine ⟨u, hget, hok, fun b => ?_⟩
  by_cases hb : b < w.bits
  · rw [decide_eq_true hb, Bool.true_and]
    exact getLsbD_eq_of_byteOf_eq (fun j hj => by rw [hbytes j hj, Nat.zero_add]) hb
  · rw [decide_eq_false hb, Bool.false_and, hhigh b (Nat.not_lt.mp hb)]

/-- Settles O13: what is read is one byte of the scalar stored. -/
theorem scalarsAreLittleEndian : Obligations.ScalarsAreLittleEndian := by
  intro w s t j hroom hj hput
  obtain ⟨u, hget, -, hbytes, hhigh⟩ := get_within_put (w' := .w8) hroom hj hput
  exact ⟨u, hget, (eq_setWidth_byteOf_zero hhigh).trans (congrArg (BitVec.setWidth 64) (hbytes 0 (by decide)))⟩

/-! ### UNPACK with its bytes remaining -/

/-- Byte `q` of scalar `i` lies below the end of the sequence. -/
theorem totalBytes_take_add_lt {ws : List Width} {i q : Nat} {w : Width} (hw : ws[i]? = some w) (hq : q < w.bytes) :
    totalBytes (ws.take i) + q < totalBytes ws := by
  have hle := totalBytes_take_le ws (i + 1)
  rw [List.take_add_one, hw, totalBytes_append] at hle
  simp only [Option.toList_some, totalBytes_cons, totalBytes_nil] at hle
  omega

/-- The values of the block UNPACK assembles are below `2^n`, whatever scalars of its widths it read (R111). -/
theorem assemble_toNat_lt {n : Nat} (hn : n ≤ 64) {xs : List Word}
    (h : ∀ (k : Nat) (w : Width) (x : Word), (scalarSeq n)[k]? = some w → xs[k]? = some x →
      ∀ b, w.bits ≤ b → x.getLsbD b = false)
    (i : Fin 16) : (assemble n xs)[i].toNat < 2 ^ n := by
  have hhigh : ∀ k w, (scalarSeq n)[k]? = some w → ∀ b, w.bits ≤ b → (xs.getD k 0).getLsbD b = false := by
    intro k w hw b hb
    rw [List.getD_eq_getElem?_getD]
    cases hx : xs[k]? with
    | none => simp
    | some x => exact h k w x hw hx b hb
  obtain ⟨-, -, habove⟩ := assemble_effect hn xs hhigh i
  exact toNat_lt_of_getLsbD habove

/-- With `2n` bytes remaining UNPACK n ends OK with a block below `2^n`, whose wire format is in every memory that
holds the bytes seen; it takes one draw for each unwritten byte (R50, R109). -/
theorem exec_unpack_of_room {n : BitVec 7} {s : State} (hn : n.toNat ≤ 64)
    (hroom : s.cursor.toNat + 2 * n.toNat ≤ s.capacity.toNat) :
    ∃ c v, exec (.unpack n) s = .next (endOfCommand .ok (((s.withDraws
        (s.draws + unwrittenBefore s.store s.cursor.toNat (2 * n.toNat))).withCursor c).withV v)) ∧
      c.toNat = s.cursor.toNat + 2 * n.toNat ∧
      (∀ m : Memory, (∀ k b, k < 2 * n.toNat → m.read (s.cursor.toNat + k) = some b →
        seenByte s.store s.cursor.toNat s.draws k = b) → CarriesStream n.toNat v m s.cursor.toNat) ∧
      (∀ i : Fin 16, v[i].toNat < 2 ^ n.toNat) := by
  have hfits : 2 * n.toNat ≤ s.remaining := by
    unfold State.remaining
    omega
  have hbytes := totalBytes_scalarSeq hn
  have hcount := (fitCount_eq_length_iff (scalarSeq n.toNat) s.remaining).mpr (by omega)
  obtain ⟨c, d, hc, hd, ⟨-, xs, hexec, hlen, hreads⟩ | ⟨hlt, -⟩⟩ := unpackCommand_effect hn s
  · rw [hcount, List.take_length, hbytes] at hc hd
    refine ⟨c, assemble n.toNat xs, by rw [exec_unpack hn, hexec, hd], hc, fun m hm => ?_, ?_⟩
    · refine carriesStream_of_reads hn xs m _ hlen fun i w x hw hx => ?_
      obtain ⟨hseen, hhigh⟩ := hreads i w x hw hx
      refine ⟨fun q b hq hb => (hseen q hq).trans (hm _ b ?_ ?_), hhigh⟩
      · exact hbytes ▸ totalBytes_take_add_lt hw hq
      · rwa [Nat.add_assoc] at hb
    · exact assemble_toNat_lt hn fun k w x hw hx => (hreads k w x hw hx).2
  · omega

/-- Settles O30: a memory that holds the bytes seen is one whose stream V carries. -/
theorem unpackReadsUnwrittenBytesAsFreshDraws : Obligations.UnpackReadsUnwrittenBytesAsFreshDraws := by
  intro n s m hn hroom hm
  obtain ⟨c, v, hexec, -, hcarries, hlt⟩ := exec_unpack_of_room hn hroom
  refine ⟨_, hexec, hcarries m fun k b hk hb => ?_, hlt, rfl⟩
  exact Option.some.inj ((hm k hk).symm.trans hb)

/-! ### The bytes a command may change -/

/-- Gets leave STORE as it was. -/
theorem getAll_store (ws : List Width) (s : State) : (getAll ws s).2.store = s.store := by
  rw [(getAll_effect ws s).frame]
  rfl

/-- Every command but PUT.W and PACK leaves STORE as it was (R49). -/
theorem exec_store_of_not_put_pack {i : Instr} {s t : State} (h : exec i s = .next t) (hput : ∀ w, i ≠ putInstr w)
    (hpack : ∀ n, i ≠ .pack n) : t.store = s.store := by
  rcases exec_cases h with ⟨w, hi, -⟩ | ⟨w, -, rfl⟩ | ⟨n, hi, -, -⟩ | ⟨n, -, -, rfl⟩ | ⟨-, rfl⟩ | ⟨-, rfl⟩ |
    ⟨n, -, -, rfl⟩
  · exact absurd hi (hput w)
  · obtain ⟨o, x, e⟩ := getCommand_eq_getAll w s
    exact e ▸ getAll_store [w] s
  · exact absurd hi (hpack n)
  · obtain ⟨o, v, e⟩ := unpackCommand_eq_getAll n.toNat s
    exact e ▸ getAll_store (scalarSeq n.toNat) s
  · rfl
  · rfl
  · rfl

/-- Settles O42: what is left are the other commands, illegal words, register accesses and the reset between
accesses. -/
theorem onlyPutAndPackChangeStore : Obligations.OnlyPutAndPackChangeStore := by
  intro s t x rest hin h hput hpack hduring hpower
  rw [step_of_inputs hin] at h
  rcases performInput_cases h with ⟨c, i, hx, hdec, hexec⟩ | ⟨c, e, -, -, rfl⟩ | ⟨idx, -, rfl⟩ |
    ⟨idx, y, -, -, rfl⟩ | ⟨idx, y, i, -, -, rfl⟩ | ⟨idx, y, -, -, rfl⟩ | ⟨-, rfl⟩ | ⟨a, hx, -⟩ | ⟨hx, -⟩
  · refine exec_store_of_not_put_pack (s := s.withInputs rest) hexec ?_ ?_
    · rintro w rfl
      exact hput c w hdec hx
    · rintro n rfl
      exact hpack c n hdec hx
  · rfl
  · rfl
  · rfl
  · rfl
  · rfl
  · rfl
  · exact absurd hx (hduring a)
  · exact absurd hx hpower

theorem writeExtent_putInstr (w : Width) (s : State) :
    writeExtent (putInstr w) s = if s.remaining < w.bytes then 0 else w.bytes := by
  cases w <;> rfl

/-- PUT.W changes no byte outside its extent (R44). -/
theorem putCommand_byte_outside (w : Width) (s : State) {a : Nat}
    (ha : a < s.cursor.toNat ∨ s.cursor.toNat + writeExtent (putInstr w) s ≤ a) :
    (putCommand w s).byte a = s.byte a := by
  rcases putCommand_cases w s with ⟨-, hput⟩ | ⟨hge, hput⟩
  · rw [hput]
    rfl
  · rw [writeExtent_putInstr, if_neg (Nat.not_lt.mpr hge)] at ha
    rw [hput]
    exact (memWrite_read _ _ _ _ _).trans (if_neg (by omega))

/-- PACK n changes no byte outside its extent: the scalars that fit take at most the `2n` bytes of all of them and
at most the bytes remaining (R102, R106). -/
theorem packCommand_byte_outside {n : BitVec 7} (hn : n.toNat ≤ 64) (s : State) {a : Nat}
    (ha : a < s.cursor.toNat ∨ s.cursor.toNat + writeExtent (.pack n) s ≤ a) :
    (packCommand n.toNat s).byte a = s.byte a := by
  obtain ⟨t, hpack, -, hcur, houtside, -, -, -, -⟩ := packCommand_effect hn s
  have hall := totalBytes_take_le (scalarSeq n.toNat) (fitCount (scalarSeq n.toNat) s.remaining)
  have hremaining := totalBytes_take_fitCount_le (scalarSeq n.toNat) s.remaining
  rw [totalBytes_scalarSeq hn] at hall
  rw [hpack]
  refine houtside a (ha.imp_right fun hge => ?_)
  simp only [writeExtent, bitWidth] at hge
  omega

/-- Settles O44: PUT.W and PACK keep to their extents, and no other command changes a byte. -/
theorem commandsWriteOnlyTheirExtent : Obligations.CommandsWriteOnlyTheirExtent := by
  intro i s t h a ha
  by_cases hput : ∃ w, i = putInstr w
  · obtain ⟨w, rfl⟩ := hput
    rw [exec_putInstr] at h
    exact Host.Outcome.next.inj h ▸ putCommand_byte_outside w s ha
  by_cases hpack : ∃ n, i = .pack n
  · obtain ⟨n, rfl⟩ := hpack
    by_cases hn : n.toNat ≤ 64
    · rw [exec_pack hn] at h
      exact Host.Outcome.next.inj h ▸ packCommand_byte_outside hn s ha
    · rw [exec_of_wide (.inl rfl) (Nat.not_le.mp hn)] at h
      exact Host.Outcome.next.inj h ▸ rfl
  exact congrArg (Memory.read · a) (exec_store_of_not_put_pack h (not_exists.mp hput) (not_exists.mp hpack))

end Sys2Proof.Machine
end

/-! ## The command word and the host port: encoder, decoder, register accesses and host programs -/

section
namespace Sys2Proof

/-! ### The fields of a command word -/

theorem fieldResHi_toNat (c : Word) : (fieldResHi c).toNat = c.toNat / 2 ^ 15 := by
  have hlt := c.isLt
  rw [fieldResHi, BitVec.extractLsb'_toNat, Nat.shiftRight_eq_div_pow]
  omega

theorem fieldArg_toNat (c : Word) : (fieldArg c).toNat = c.toNat / 256 % 128 := by
  rw [fieldArg, BitVec.extractLsb'_toNat, Nat.shiftRight_eq_div_pow]

theorem fieldResLo_toNat (c : Word) : (fieldResLo c).toNat = c.toNat / 16 % 16 := by
  rw [fieldResLo, BitVec.extractLsb'_toNat, Nat.shiftRight_eq_div_pow]

theorem fieldOp_toNat (c : Word) : (fieldOp c).toNat = c.toNat % 16 := by
  rw [fieldOp, BitVec.extractLsb'_toNat, Nat.shiftRight_zero]

theorem fieldWC_toNat (c : Word) : (fieldWC c).toNat = c.toNat / 256 % 4 := by
  rw [fieldWC, BitVec.extractLsb'_toNat, Nat.shiftRight_eq_div_pow]

theorem fieldArgHi_toNat (c : Word) : (fieldArgHi c).toNat = c.toNat / 1024 % 32 := by
  rw [fieldArgHi, BitVec.extractLsb'_toNat, Nat.shiftRight_eq_div_pow]

/-- The four fields of R65 make up the whole word. -/
theorem eq_of_fields_eq {c d : Word} (hhi : fieldResHi c = fieldResHi d) (hlo : fieldResLo c = fieldResLo d)
    (hop : fieldOp c = fieldOp d) (harg : fieldArg c = fieldArg d) : c = d := by
  have h1 := congrArg BitVec.toNat hhi
  have h2 := congrArg BitVec.toNat hlo
  have h3 := congrArg BitVec.toNat hop
  have h4 := congrArg BitVec.toNat harg
  simp only [fieldResHi_toNat, fieldResLo_toNat, fieldOp_toNat, fieldArg_toNat] at h1 h2 h3 h4
  apply BitVec.eq_of_toNat_eq
  omega

/-- The words with reserved fields zero are the `commandWord`s. -/
theorem commandWord_eq_of_fields {c : Word} {arg : BitVec 7} {op : BitVec 4} (hhi : fieldResHi c = 0)
    (hlo : fieldResLo c = 0) (hop : fieldOp c = op) (harg : fieldArg c = arg) : commandWord arg op = c := by
  obtain ⟨hi, lo, ho, ha⟩ := Laws.ReservedFieldsZero.commandWord_fields arg op
  exact eq_of_fields_eq (hi.trans hhi.symm) (lo.trans hlo.symm) (ho.trans hop.symm) (ha.trans harg.symm)

/-- An ARG that is a width code only (R69 item 4). -/
theorem fieldArg_of_fieldArgHi {c : Word} (h : fieldArgHi c = 0) : fieldArg c = (fieldWC c).setWidth 7 := by
  have hhi : c.toNat / 1024 % 32 = 0 := fieldArgHi_toNat c ▸ congrArg BitVec.toNat h
  apply BitVec.eq_of_toNat_eq
  rw [BitVec.toNat_setWidth, fieldArg_toNat, fieldWC_toNat]
  omega

theorem legalBitWidth_iff (n : BitVec 7) : legalBitWidth n = true ↔ n.toNat ≤ 64 := decide_eq_true_iff

/-! ### The decoder -/

/-- What each check of the decoder does: the command under its condition, an error otherwise. -/
theorem ite_ok_error_eq_ok_iff {p : Prop} [Decidable p] {e : IllegalWord} {j i : Instr} :
    (if p then .ok j else .error e) = Except.ok i ↔ p ∧ j = i := by
  split
  next h => simp only [h, true_and, Except.ok.injEq]
  next h => simp only [h, false_and, reduceCtorEq]

theorem codecCommand_eq_ok_iff {mk : BitVec 7 → Instr} {c : Word} {i : Instr} :
    codecCommand mk c = .ok i ↔ (fieldArg c).toNat ≤ 64 ∧ mk (fieldArg c) = i := by
  rw [codecCommand, ite_ok_error_eq_ok_iff, legalBitWidth_iff]

theorem scalarCommand_eq_ok_iff {mk : BitVec 2 → Instr} {c : Word} {i : Instr} :
    scalarCommand mk c = .ok i ↔ fieldArgHi c = 0 ∧ mk (fieldWC c) = i :=
  ite_ok_error_eq_ok_iff

theorem plainCommand_eq_ok_iff {j : Instr} {c : Word} {i : Instr} :
    plainCommand j c = .ok i ↔ fieldArg c = 0 ∧ j = i :=
  ite_ok_error_eq_ok_iff

/-- Everything the decoder accepts: reserved fields zero, and one case for each operation code (R65, R66, R69). -/
theorem decode_eq_ok_iff {c : Word} {i : Instr} : decode c = .ok i ↔ fieldResHi c = 0 ∧ fieldResLo c = 0 ∧
    ((fieldOp c = 1 ∧ (fieldArg c).toNat ≤ 64 ∧ .pack (fieldArg c) = i) ∨
     (fieldOp c = 2 ∧ (fieldArg c).toNat ≤ 64 ∧ .unpack (fieldArg c) = i) ∨
     (fieldOp c = 3 ∧ fieldArgHi c = 0 ∧ putOfWC (fieldWC c) = i) ∨
     (fieldOp c = 4 ∧ fieldArgHi c = 0 ∧ getOfWC (fieldWC c) = i) ∨
     (fieldOp c = 5 ∧ fieldArg c = 0 ∧ .rewind = i) ∨
     (fieldOp c = 6 ∧ fieldArg c = 0 ∧ .clrstat = i)) := by
  simp only [← codecCommand_eq_ok_iff, ← scalarCommand_eq_ok_iff, ← plainCommand_eq_ok_iff]
  by_cases hres : fieldResHi c ≠ 0 ∨ fieldResLo c ≠ 0
  · rw [decode, if_pos hres]
    simp only [reduceCtorEq, false_iff]
    rintro ⟨hhi, hlo, -⟩
    exact hres.elim (absurd hhi) (absurd hlo)
  · rw [decode, if_neg hres]
    rw [not_or, not_not, not_not] at hres
    simp only [hres, true_and]
    split_ifs with h1 h2 h3 h4 h5 h6
    · simp [h1]
    · simp [h2]
    · simp [h3]
    · simp [h4]
    · simp [h5]
    · simp [h6]
    · simp only [h1, h2, h3, h4, h5, h6, false_and, or_false]

/-- R69 on the fields of R65: the reserved fields are zero, the operation code is one of the six, and ARG is a width up
to 64, a width code or zero, as the operation code asks. -/
def fieldsLegal (c : Word) : Prop :=
  fieldResHi c = 0 ∧ fieldResLo c = 0 ∧
  (((fieldOp c = 1 ∨ fieldOp c = 2) ∧ (fieldArg c).toNat ≤ 64) ∨
   ((fieldOp c = 3 ∨ fieldOp c = 4) ∧ fieldArgHi c = 0) ∨
   ((fieldOp c = 5 ∨ fieldOp c = 6) ∧ fieldArg c = 0))

/-- The words that decode, whatever to. -/
theorem exists_decode_eq_ok_iff (c : Word) : (∃ i, decode c = .ok i) ↔ fieldsLegal c := by
  simp only [decode_eq_ok_iff, fieldsLegal, exists_and_left, exists_or, exists_eq', and_true, or_and_right, or_assoc]

theorem encode_putOfWC : ∀ wc : BitVec 2, encode (putOfWC wc) = commandWord (wc.setWidth 7) 3 := by decide

theorem encode_getOfWC : ∀ wc : BitVec 2, encode (getOfWC wc) = commandWord (wc.setWidth 7) 4 := by decide

theorem putOfWC_wellFormed : ∀ wc : BitVec 2, (putOfWC wc).wellFormed = true := by decide

theorem getOfWC_wellFormed : ∀ wc : BitVec 2, (getOfWC wc).wellFormed = true := by decide

/-- Settles O2: the decoder finds in a codec command's word the fields it was put together from; the words of the other
commands are constants. -/
theorem decodeOfEncodeIsTheCommand : Obligations.DecodeOfEncodeIsTheCommand := by
  intro i hi
  cases i with
  | pack n =>
    obtain ⟨hhi, hlo, hop, harg⟩ := Laws.ReservedFieldsZero.commandWord_fields n 1
    have hn := (legalBitWidth_iff n).mp hi
    exact decode_eq_ok_iff.mpr ⟨hhi, hlo, .inl ⟨hop, harg.symm ▸ hn, congrArg Instr.pack harg⟩⟩
  | unpack n =>
    obtain ⟨hhi, hlo, hop, harg⟩ := Laws.ReservedFieldsZero.commandWord_fields n 2
    have hn := (legalBitWidth_iff n).mp hi
    exact decode_eq_ok_iff.mpr ⟨hhi, hlo, .inr (.inl ⟨hop, harg.symm ▸ hn, congrArg Instr.unpack harg⟩)⟩
  | put8 | put16 | put32 | put64 | get8 | get16 | get32 | get64 | rewind | clrstat => decide

/-- Settles O3: in each case of the decoder the command's word has the fields of the word decoded. -/
theorem encodeOfDecodeIsTheWord : Obligations.EncodeOfDecodeIsTheWord := by
  intro c i h
  obtain ⟨hhi, hlo, ⟨hop, hn, rfl⟩ | ⟨hop, hn, rfl⟩ | ⟨hop, hargHi, rfl⟩ | ⟨hop, hargHi, rfl⟩ | ⟨hop, harg, rfl⟩ |
    ⟨hop, harg, rfl⟩⟩ := decode_eq_ok_iff.mp h
  · exact ⟨(legalBitWidth_iff _).mpr hn, commandWord_eq_of_fields hhi hlo hop rfl⟩
  · exact ⟨(legalBitWidth_iff _).mpr hn, commandWord_eq_of_fields hhi hlo hop rfl⟩
  · refine ⟨putOfWC_wellFormed _, (encode_putOfWC _).trans ?_⟩
    exact commandWord_eq_of_fields hhi hlo hop (fieldArg_of_fieldArgHi hargHi)
  · refine ⟨getOfWC_wellFormed _, (encode_getOfWC _).trans ?_⟩
    exact commandWord_eq_of_fields hhi hlo hop (fieldArg_of_fieldArgHi hargHi)
  · exact ⟨rfl, commandWord_eq_of_fields hhi hlo hop harg⟩
  · exact ⟨rfl, commandWord_eq_of_fields hhi hlo hop harg⟩

/-- Settles O1: a conjunction of closed facts about the decoder. -/
theorem tableWordsDecodeAsListed : Obligations.TableWordsDecodeAsListed := by
  unfold Obligations.TableWordsDecodeAsListed
  decide

/-! ### The legal words -/

/-- A field is zero exactly when each of its bits is. -/
theorem extractLsb'_eq_zero_iff (c : Word) (a k : Nat) :
    c.extractLsb' a k = 0 ↔ ∀ b, a ≤ b → b < a + k → c.getLsbD b = false := by
  constructor
  · intro h b hab hbk
    have hbit := congrArg (BitVec.getLsbD · (b - a)) h
    simp only [BitVec.getLsbD_extractLsb', Nat.add_sub_cancel' hab, decide_eq_true (show b - a < k by omega),
      Bool.true_and] at hbit
    exact hbit.trans BitVec.getLsbD_zero
  · intro h
    apply BitVec.eq_of_getLsbD_eq
    intro j hj
    rw [BitVec.getLsbD_extractLsb', h (a + j) (by omega) (by omega), Bool.and_false]
    exact BitVec.getLsbD_zero.symm

theorem fieldResHi_eq_zero_iff (c : Word) : fieldResHi c = 0 ↔ ∀ b, 15 ≤ b → c.getLsbD b = false := by
  rw [fieldResHi, extractLsb'_eq_zero_iff]
  refine ⟨fun h b hb => ?_, fun h b hb _ => h b hb⟩
  by_cases hlt : b < 64
  · exact h b hb hlt
  · exact BitVec.getLsbD_of_ge c b (Nat.not_lt.mp hlt)

theorem fieldResLo_eq_zero_iff (c : Word) : fieldResLo c = 0 ↔ ∀ b, 4 ≤ b → b ≤ 7 → c.getLsbD b = false := by
  simp only [fieldResLo, extractLsb'_eq_zero_iff, Nat.reduceAdd, Nat.lt_succ_iff]

theorem fieldArgHi_eq_zero_iff (c : Word) : fieldArgHi c = 0 ↔ ∀ b, 10 ≤ b → b ≤ 14 → c.getLsbD b = false := by
  simp only [fieldArgHi, extractLsb'_eq_zero_iff, Nat.reduceAdd, Nat.lt_succ_iff]

theorem fieldArg_eq_zero_iff (c : Word) : fieldArg c = 0 ↔ ∀ b, 8 ≤ b → b ≤ 14 → c.getLsbD b = false := by
  simp only [fieldArg, extractLsb'_eq_zero_iff, Nat.reduceAdd, Nat.lt_succ_iff]

theorem fieldOp_eq_iff (c : Word) (op : BitVec 4) : fieldOp c = op ↔ c.toNat % 16 = op.toNat := by
  rw [← fieldOp_toNat, BitVec.toNat_inj]

/-- The five items of R69 in terms of the fields: items 3 to 5 each speak of two operation codes, and item 2 says that
the word has one of the six. -/
theorem legalWord_iff (c : Word) : Machine.legalWord c ↔ fieldsLegal c := by
  simp only [Machine.legalWord, fieldsLegal, ← fieldResHi_eq_zero_iff, ← fieldResLo_eq_zero_iff,
    ← fieldArgHi_eq_zero_iff, ← fieldArg_eq_zero_iff, ← fieldArg_toNat, fieldOp_eq_iff,
    BitVec.ofNat_eq_ofNat, BitVec.toNat_ofNat, Nat.reducePow, Nat.reduceMod, and_assoc]
  refine and_congr_right fun _ => and_congr_right fun _ => ?_
  constructor
  · rintro ⟨hge, hle, hcodec, hscalar, hplain⟩
    have hop : (c.toNat % 16 = 1 ∨ c.toNat % 16 = 2) ∨ (c.toNat % 16 = 3 ∨ c.toNat % 16 = 4) ∨
        (c.toNat % 16 = 5 ∨ c.toNat % 16 = 6) := by omega
    exact hop.imp (fun h => ⟨h, hcodec h⟩) (Or.imp (fun h => ⟨h, hscalar h⟩) fun h => ⟨h, hplain h⟩)
  · rintro (⟨hop, h⟩ | ⟨hop, h⟩ | ⟨hop, h⟩)
    · exact ⟨by omega, by omega, fun _ => h, by omega, by omega⟩
    · exact ⟨by omega, by omega, by omega, fun _ => h, by omega⟩
    · exact ⟨by omega, by omega, by omega, by omega, fun _ => h⟩

/-- A word decodes exactly when it meets the five items of R69. -/
theorem exists_decode_eq_ok_iff_legalWord (c : Word) : (∃ i, decode c = .ok i) ↔ Machine.legalWord c :=
  (exists_decode_eq_ok_iff c).trans (legalWord_iff c).symm

/-- A word that meets not all five items is refused (R69, R71). -/
theorem decode_of_not_legalWord {c : Word} (h : ¬Machine.legalWord c) : ∃ e, decode c = .error e := by
  rw [← exists_decode_eq_ok_iff_legalWord] at h
  cases hdec : decode c with
  | ok i => exact absurd ⟨i, hdec⟩ h
  | error e => exact ⟨e, rfl⟩

end Sys2Proof
end

section
namespace Sys2Proof.Machine

/-! ### The issue of a command -/

/-- A write of a word that decodes is its command (R64). -/
theorem step_of_issue_ok {s : State} {c : Word} {i : Instr} {rest : List Input} (hin : s.inputs = issueInput c :: rest)
    (hdec : decode c = .ok i) : step s = exec i (s.withInputs rest) := by
  have hissue : step s = issueCommand c (s.withInputs rest) := step_of_inputs hin
  rw [hissue, issueCommand, hdec]

/-- A write of a word that does not decode is an illegal command (R141). -/
theorem step_of_issue_error {s : State} {c : Word} {e : IllegalWord} {rest : List Input}
    (hin : s.inputs = issueInput c :: rest) (hdec : decode c = .error e) :
    step s = .next (illegalCommand (s.withInputs rest)) := by
  have hissue : step s = issueCommand c (s.withInputs rest) := step_of_inputs hin
  rw [hissue, issueCommand, hdec]

/-- An illegal command reports ILL and changes nothing but STATUS (R141, R154). -/
theorem illegalCommand_only_reports (s : State) :
    StatusEnds .illegalCommand s.status (illegalCommand s).status ∧
      illegalCommand s = s.withStatus (illegalCommand s).status :=
  ⟨statusEnds_statusAfter _ _, rfl⟩

/-- Settles O4: R69's items are the decoder's checks, and a word it refuses is an illegal command. -/
theorem legalWordsAreThoseOfRule69 : Obligations.LegalWordsAreThoseOfRule69 := by
  refine fun c => ⟨exists_decode_eq_ok_iff_legalWord c, fun hillegal s rest hin => ?_⟩
  obtain ⟨e, hdec⟩ := decode_of_not_legalWord hillegal
  exact ⟨_, step_of_issue_error hin hdec, illegalCommand_only_reports (s.withInputs rest)⟩

/-- Settles O5. -/
theorem stepRunsTheIssuedCommand : Obligations.StepRunsTheIssuedCommand :=
  fun _ _ _ _ => step_of_issue_ok

theorem decode_of_decodeTableWord {nbits w : Nat} {i : Instr} (h : decodeTableWord nbits w = some i) :
    decode (tableWord nbits w) = .ok i := by
  rw [decodeTableWord] at h
  cases hdec : decode (tableWord nbits w) with
  | ok j =>
    rw [hdec] at h
    exact congrArg Except.ok (Option.some.inj h)
  | error e =>
    rw [hdec] at h
    cases h

/-- Settles O6: the word is issued at the head of the queue, and its step leaves the queue as it was. -/
theorem fetchWordIsRunNext : Obligations.FetchWordIsRunNext := by
  intro s nbits w i h
  exact step_of_issue_ok (s := s.withFetchWord nbits w) rfl (decode_of_decodeTableWord h)

/-- Settles O36. -/
theorem codecWidthAboveSixtyFourIsIllegal : Obligations.CodecWidthAboveSixtyFourIsIllegal := by
  intro n s hn
  exact ⟨⟨_, exec_of_wide (.inl rfl) hn s, illegalCommand_only_reports s⟩,
    ⟨_, exec_of_wide (.inr rfl) hn s, illegalCommand_only_reports s⟩⟩

/-! ### Register accesses -/

theorem ofIndex_v : ∀ i : Fin 16, HostReg.ofIndex (BitVec.ofNat 5 (16 + i.val)) = .v i := by decide

/-- The registers a write leaves alone: read-only ones and reserved offsets (R61, R62). -/
theorem ofIndex_of_not_writable : ∀ idx : RegIndex, 1 ≤ idx.toNat → idx.toNat ≤ 15 → idx.toNat ≠ 4 →
    HostReg.ofIndex idx = .status ∨ HostReg.ofIndex idx = .cursor ∨ HostReg.ofIndex idx = .capacity ∨
      HostReg.ofIndex idx = .reserved := by decide

theorem ofIndex_reserved : ∀ idx : RegIndex, 5 ≤ idx.toNat → idx.toNat ≤ 15 → HostReg.ofIndex idx = .reserved := by
  decide

/-- A write of a read-only register or a reserved offset changes nothing (R62). -/
theorem hostWrite_not_writable {idx : RegIndex} (h1 : 1 ≤ idx.toNat) (h15 : idx.toNat ≤ 15) (h4 : idx.toNat ≠ 4)
    (x : Word) (s : State) : hostWrite idx x s = .next s := by
  rcases ofIndex_of_not_writable idx h1 h15 h4 with h | h | h | h
  · rw [hostWrite, h]
  · rw [hostWrite, h]
  · rw [hostWrite, h]
  · rw [hostWrite, h]

/-- A write of `V[i]` (R63). -/
theorem hostWrite_v (i : Fin 16) (x : Word) (s : State) :
    hostWrite (BitVec.ofNat 5 (16 + i.val)) x s = .next (s.withV (s.v.set i x)) := by
  rw [hostWrite, ofIndex_v]

/-- The pending inputs are no register. -/
theorem readRegister_withInputs (s : State) (q : List Input) (r : HostReg) :
    readRegister (s.withInputs q) r = readRegister s r := by
  cases r <;> rfl

/-- Settles O37: one case for each kind of access, the read's value register by register. -/
theorem hostAccessesOfRegisters : Obligations.HostAccessesOfRegisters := by
  refine fun s rest => ⟨fun x hin => step_of_inputs hin, fun i x hin => ?_, fun idx x h1 h15 h4 hin => ?_,
    fun idx hin => ?_⟩
  · have hwrite := (step_of_inputs hin).trans (hostWrite_v i x (s.withInputs rest))
    refine ⟨_, hwrite, rfl, ?_, fun k hk => ?_⟩
    · exact Vector.getElem_set_self i.isLt
    · exact Vector.getElem_set_ne i.isLt k.isLt fun h => hk (Fin.ext h.symm)
  · exact (step_of_inputs hin).trans (hostWrite_not_writable h1 h15 h4 x _)
  · refine ⟨readRegister s (HostReg.ofIndex idx), ?_, fun h => h ▸ rfl, fun h => h ▸ rfl, fun h => h ▸ rfl,
      fun h => h ▸ rfl, fun h => h ▸ rfl, fun h5 h15 => ?_, fun i hi => ?_⟩
    · rw [step_of_inputs hin, ← readRegister_withInputs s rest]
      rfl
    · rw [ofIndex_reserved idx h5 h15, readRegister]
    · have hidx : idx = BitVec.ofNat 5 (16 + i.val) := by
        apply BitVec.eq_of_toNat_eq
        rw [hi, BitVec.toNat_ofNat]
        omega
      rw [hidx, ofIndex_v, readRegister]

/-! ### Host programs -/

/-- The accesses of WRBLK (R73). -/
theorem wrblk_accesses_getElem? (a : Block) (i : Fin 16) :
    (HostLine.wrblk a).accesses[i.val]? = some (.write (BitVec.ofNat 5 (16 + i.val)) a[i]) := by
  simp [HostLine.accesses, HostReg.index]

theorem programInputs_cons (l : HostLine) (ls : List HostLine) :
    programInputs (l :: ls) = l.accesses.map .access ++ programInputs ls := by
  rw [programInputs, List.flatMap_cons, List.map_append, programInputs]

/-- Settles O39: every clause but WRBLK's and the program's is the line's definition, at each register's offset. -/
theorem hostLinesExpandAsWritten : Obligations.HostLinesExpandAsWritten := by
  refine ⟨fun r idx h => ?_, fun _ => rfl, fun a => ⟨?_, wrblk_accesses_getElem? a⟩, fun _ => rfl, rfl,
    programInputs_cons⟩
  · have hidx : r.index = idx := by
      rcases h with ⟨rfl, rfl⟩ | ⟨rfl, rfl⟩ | ⟨rfl, rfl⟩ | ⟨rfl, rfl⟩ | ⟨rfl, rfl⟩ | ⟨i, rfl, rfl⟩
      all_goals rfl
    subst hidx
    exact ⟨fun _ => rfl, rfl⟩
  · rw [HostLine.accesses, List.length_map, List.length_finRange]

end Sys2Proof.Machine
end

/-! ## The buffer commands PUT.W, GET.W and REWIND -/

section
namespace Sys2Proof.Machine

/-! ### Their command words -/

/-- The command word of PUT.W has its width code as argument (R66, R68). -/
theorem encode_putInstr (w : Width) : encode (putInstr w) = commandWord (widthCode w) 3 := by
  cases w <;> rfl

/-- The command word of GET.W has its width code as argument (R66, R68). -/
theorem encode_getInstr (w : Width) : encode (getInstr w) = commandWord (widthCode w) 4 := by
  cases w <;> rfl

theorem putInstr_wellFormed (w : Width) : (putInstr w).wellFormed = true := by cases w <;> rfl

theorem getInstr_wellFormed (w : Width) : (getInstr w).wellFormed = true := by cases w <;> rfl

theorem decode_putInstr (w : Width) : decode (commandWord (widthCode w) 3) = .ok (putInstr w) :=
  encode_putInstr w ▸ decodeOfEncodeIsTheCommand _ (putInstr_wellFormed w)

theorem decode_getInstr (w : Width) : decode (commandWord (widthCode w) 4) = .ok (getInstr w) :=
  encode_getInstr w ▸ decodeOfEncodeIsTheCommand _ (getInstr_wellFormed w)

/-! ### Their ends -/

/-- The end of a command writes its outcome to STATUS and changes nothing else (R154). -/
theorem endOfCommand_only_reports (o : CommandOutcome) (s : State) :
    StatusEnds o s.status (endOfCommand o s).status ∧ endOfCommand o s = s.withStatus (endOfCommand o s).status :=
  ⟨statusEnds_statusAfter _ _, rfl⟩

/-- PUT.W without room for its scalar only ends CAP (R80). -/
theorem exec_put_without_room {w : Width} {s : State} (hfull : s.capacity.toNat < s.cursor.toNat + w.bytes) :
    exec (putInstr w) s = .next (endOfCommand .capacityExhausted s) := by
  rw [exec_putInstr]
  rcases putCommand_cases w s with ⟨-, hput⟩ | ⟨hfits, -⟩
  · rw [hput]
  · exact absurd ((bytes_le_remaining_iff s w.bytes_pos).mp hfits) (Nat.not_le.mpr hfull)

/-- GET.W without its bytes remaining only ends OOR (R85). -/
theorem exec_get_without_room {w : Width} {s : State} (hshort : s.capacity.toNat < s.cursor.toNat + w.bytes) :
    exec (getInstr w) s = .next (endOfCommand .outOfRange s) := by
  rw [exec_getInstr]
  rcases getCommand_cases w s with ⟨-, hget⟩ | ⟨hfits, -⟩
  · rw [hget]
  · exact absurd ((bytes_le_remaining_iff s w.bytes_pos).mp hfits) (Nat.not_le.mpr hshort)

/-- CURSOR advances past a scalar that fits, without wrapping (R44, R45). -/
theorem advance_cursor_of_room {w : Width} {s : State} (hroom : s.cursor.toNat + w.bytes ≤ s.capacity.toNat) :
    (s.advance w).cursor.toNat = s.cursor.toNat + w.bytes :=
  advance_cursor ((bytes_le_remaining_iff s w.bytes_pos).mpr hroom)

/-! ### Their statements -/

/-- Settles O9: with room STORE is one `MemWrite` of DATA, read inside and outside the scalar; without room the
command is its end. -/
theorem putAppendsScalarOrEndsCap : Obligations.PutAppendsScalarOrEndsCap := by
  refine fun w s => ⟨decode_putInstr w, fun hroom => ?_, fun hfull => ?_⟩
  · refine ⟨_, exec_put_of_room hroom, advance_cursor_of_room (s := s.withStore _) hroom, fun j hj => ?_,
      fun a ha => ?_, statusEnds_statusAfter _ _, rfl, rfl, rfl, rfl, rfl, rfl⟩
    · refine (memWrite_read _ _ _ _ _).trans ((if_pos (by omega)).trans ?_)
      rw [Nat.add_sub_cancel_left, byteOf]
    · exact (memWrite_read _ _ _ _ _).trans (if_neg (by omega))
  · exact ⟨_, exec_put_without_room hfull, endOfCommand_only_reports _ s⟩

/-- Settles O10: with its bytes remaining the command leaves in DATA the bytes a read sees, and a written byte is seen
as it was written; otherwise the command is its end. -/
theorem getReadsScalarOrEndsOor : Obligations.GetReadsScalarOrEndsOor := by
  refine fun w s => ⟨decode_getInstr w, fun hroom => ?_, fun hshort => ?_⟩
  · obtain ⟨x, hexec, hbytes, hhigh⟩ := exec_get_of_room hroom
    refine ⟨_, hexec, advance_cursor_of_room (s := s.withDraws _) hroom, fun j b hj hb => ?_, hhigh,
      statusEnds_statusAfter _ _, rfl, rfl, rfl, rfl, rfl⟩
    exact (hbytes j hj).trans (seenByte_of_written hb s.draws)
  · exact ⟨_, exec_get_without_room hshort, endOfCommand_only_reports _ s⟩

/-- Settles O15: the end of the command follows the move of CURSOR and changes only STATUS. -/
theorem rewindOnlyMovesCursorToStart : Obligations.RewindOnlyMovesCursorToStart :=
  ⟨decodeOfEncodeIsTheCommand .rewind rfl, fun s => ⟨_, rfl, rfl, endOfCommand_only_reports .ok (rewind s)⟩⟩

end Sys2Proof.Machine
end

/-! ## The codec: the decomposition, PACK and UNPACK -/

section
namespace Sys2Proof.Machine

/-! ### The decomposition -/

/-- Settles O21: the lanes are evaluated width by width; their sum is that of every decomposition. -/
theorem lanePeelingClosedForm : Obligations.LanePeelingClosedForm := by
  have hclosed : ∀ n, n < 64 → laneSeq n =
      ((if n.testBit 5 then [.w32] else []) ++ (if n.testBit 4 then [.w16] else []) ++
        (if n.testBit 3 then [.w8] else []), n % 8) := by decide
  refine ⟨by decide, fun n hn => ⟨hclosed n hn, ?_⟩⟩
  have hsum := totalBits_laneSeq hn.le
  have hrem : (laneSeq n).2 = n % 8 := congrArg Prod.snd (hclosed n hn)
  omega

/-- Settles O22, by evaluating the eight decompositions. -/
theorem tileDecompositionTable : Obligations.TileDecompositionTable := by
  unfold Obligations.TileDecompositionTable
  decide

theorem scalarSeq_length (n : Nat) :
    (scalarSeq n).length = 16 * (laneSeq n).1.length + (tileSeq (laneSeq n).2).length := by
  rw [scalarSeq_eq, List.length_append, laneSections_length]

/-- At most three lanes, and at most three tiles beside them (R118). -/
theorem lanes_tiles_length_le : ∀ n, n ≤ 64 →
    (laneSeq n).1.length ≤ 3 ∧ (tileSeq (laneSeq n).2).length ≤ 3 := by decide

/-- Settles O23: three lanes of sixteen scalars and three tiles make 51. -/
theorem scalarSequenceLength : Obligations.ScalarSequenceLength := by
  intro n hn
  have hlen := scalarSeq_length n
  obtain ⟨hlanes, htiles⟩ := lanes_tiles_length_le n hn
  exact ⟨totalBytes_scalarSeq hn, hlen, by omega⟩

/-! ### Places in a sequence of scalars -/

theorem totalBytes_take_mono (ws : List Width) {i j : Nat} (h : i ≤ j) :
    totalBytes (ws.take i) ≤ totalBytes (ws.take j) := by
  have hle := totalBytes_take_le (ws.take j) i
  rwa [List.take_take, Nat.min_eq_left h] at hle

/-- Every scalar takes a byte, so that fewer scalars of a sequence take fewer bytes than all of it. -/
theorem totalBytes_take_lt {ws : List Width} {j : Nat} (h : j < ws.length) :
    totalBytes (ws.take j) < totalBytes ws :=
  totalBytes_take_add_lt (q := 0) (List.getElem?_eq_getElem h) (ws[j]).bytes_pos

/-- A byte below the end of the first `j` scalars lies in one of them. -/
theorem exists_scalar_of_byte_lt {ws : List Width} {j k : Nat} (h : k < totalBytes (ws.take j)) :
    ∃ i w, i < j ∧ ws[i]? = some w ∧ totalBytes (ws.take i) ≤ k ∧ k < totalBytes (ws.take i) + w.bytes := by
  have hbit : 8 * k < totalBits (ws.take j) := by
    rw [totalBits_eq]
    omega
  obtain ⟨i, w, hw, hge, hlt⟩ := exists_width_of_lt _ _ hbit
  rw [List.getElem?_take] at hw
  obtain ⟨hij, hw⟩ := Option.ite_none_right_eq_some.mp hw
  rw [List.take_take, Nat.min_eq_left hij.le, totalBits_eq] at hge hlt
  rw [w.bits_eq] at hlt
  exact ⟨i, w, hij, hw, by omega, by omega⟩

/-! ### How far a codec command comes -/

/-- The bytes of the scalars of width `n` that fit from CURSOR on (R106, R110). -/
def fittingBytes (n : Nat) (s : State) : Nat :=
  totalBytes ((scalarSeq n).take (fitCount (scalarSeq n) s.remaining))

theorem le_remaining_of_room {s : State} {k : Nat} (h : s.cursor.toNat + k ≤ s.capacity.toNat) :
    k ≤ s.remaining := by
  unfold State.remaining
  omega

theorem remaining_lt_of_short {s : State} {k : Nat} (hk : 0 < k) (h : s.capacity.toNat < s.cursor.toNat + k) :
    s.remaining < k :=
  Nat.not_le.mp fun hle => absurd ((bytes_le_remaining_iff s hk).mp hle) (Nat.not_le.mpr h)

theorem cursor_add_fittingBytes_le (n : Nat) {s : State} (hcur : s.cursor.toNat ≤ s.capacity.toNat) :
    s.cursor.toNat + fittingBytes n s ≤ s.capacity.toNat := by
  have hle : fittingBytes n s ≤ s.remaining := totalBytes_take_fitCount_le _ _
  unfold State.remaining at hle
  omega

theorem fittingBytes_of_room {n : Nat} {s : State} (hn : n ≤ 64) (h : 2 * n ≤ s.remaining) :
    fittingBytes n s = 2 * n := by
  have hbytes := totalBytes_scalarSeq hn
  have hall := (fitCount_eq_length_iff (scalarSeq n) s.remaining).mpr (by omega)
  rw [fittingBytes, hall, List.take_length, hbytes]

/-- With fewer than `2n` bytes remaining some scalar is the first that does not fit. -/
theorem exists_failing_scalar {n : Nat} {s : State} (hn : n ≤ 64) (h : s.remaining < 2 * n) :
    ∃ j, j < (scalarSeq n).length ∧ fittingBytes n s = totalBytes ((scalarSeq n).take j) ∧
      s.capacity.toNat < s.cursor.toNat + totalBytes ((scalarSeq n).take (j + 1)) := by
  have hbytes := totalBytes_scalarSeq hn
  have hne : fitCount (scalarSeq n) s.remaining ≠ (scalarSeq n).length := fun hall => by
    have hle := (fitCount_eq_length_iff _ _).mp hall
    omega
  have hlt := Nat.lt_of_le_of_ne (fitCount_le_length _ _) hne
  have hfail := room_lt_of_fitCount_lt hlt
  exact ⟨_, hlt, rfl, lt_add_of_tsub_lt_left hfail⟩

/-! ### What PACK leaves -/

/-- What PACK n leaves when it starts in `s` and ends in `t`, masked or not (R105 to R108). -/
structure PackLeaves (n : Nat) (s t : State) : Prop where
  status : StatusEnds (if 2 * n ≤ s.remaining then .ok else .capacityExhausted) s.status t.status
  cursor : t.cursor.toNat = s.cursor.toNat + fittingBytes n s
  outside : ∀ a, a < s.cursor.toNat ∨ t.cursor.toNat ≤ a → t.byte a = s.byte a
  inside : ∀ a, s.cursor.toNat ≤ a → a < t.cursor.toNat → (t.byte a).isSome = true
  stored : ∀ i c q, (packPlan n s).1[i]? = some c → q < c.width.bytes →
    s.cursor.toNat + totalBytes ((scalarSeq n).take i) + q < t.cursor.toNat →
    t.byte (s.cursor.toNat + totalBytes ((scalarSeq n).take i) + q) = some (byteOf c.value q)
  draws : t.draws = (packPlan n s).2

theorem exec_pack_leaves {n : BitVec 7} (hn : n.toNat ≤ 64) (s : State) :
    ∃ t, exec (.pack n) s = .next t ∧ PackLeaves n.toNat s t := by
  obtain ⟨t, hpack, hframe, hcur, houtside, hinside, hstored, -, -⟩ := packCommand_effect hn s
  refine ⟨_, (exec_pack hn s).trans (congrArg _ hpack), ?_, hcur, houtside, hinside, fun i c q hc hq hlt => ?_, ?_⟩
  · rw [hframe]
    exact statusEnds_statusAfter _ _
  · refine hstored i c hc (Nat.not_le.mp fun hle => ?_) q hq
    have hmono := totalBytes_take_mono (scalarSeq n.toNat) hle
    rw [endOfCommand_cursor] at hlt
    omega
  · rw [endOfCommand_draws, hframe]
    rfl

namespace PackLeaves

variable {n : Nat} {s t : State}

theorem of_room (h : PackLeaves n s t) (hn : n ≤ 64) (hroom : s.cursor.toNat + 2 * n ≤ s.capacity.toNat) :
    StatusEnds .ok s.status t.status ∧ t.cursor.toNat = s.cursor.toNat + 2 * n := by
  have hfits := le_remaining_of_room hroom
  have hst := h.status
  rw [if_pos hfits] at hst
  exact ⟨hst, by rw [h.cursor, fittingBytes_of_room hn hfits]⟩

theorem of_short (h : PackLeaves n s t) (hn : n ≤ 64) (hcur : s.cursor.toNat ≤ s.capacity.toNat)
    (hshort : s.capacity.toNat < s.cursor.toNat + 2 * n) :
    StatusEnds .capacityExhausted s.status t.status ∧ t.cursor.toNat ≤ s.capacity.toNat ∧
      ∃ j, j < (scalarSeq n).length ∧ t.cursor.toNat = s.cursor.toNat + totalBytes ((scalarSeq n).take j) ∧
        s.capacity.toNat < s.cursor.toNat + totalBytes ((scalarSeq n).take (j + 1)) := by
  have hlt := remaining_lt_of_short (by omega) hshort
  have hst := h.status
  rw [if_neg (Nat.not_le.mpr hlt)] at hst
  obtain ⟨j, hj, hfit, hfail⟩ := exists_failing_scalar hn hlt
  rw [h.cursor]
  exact ⟨hst, cursor_add_fittingBytes_le n hcur, j, hj, by rw [hfit], hfail⟩

/-- PACK that ended OK had its `2n` bytes remaining. -/
theorem fits_of_result_ok (h : PackLeaves n s t) (hok : statusResult t.status = 0) :
    2 * n ≤ s.remaining := by
  by_contra hlt
  obtain ⟨hres, -⟩ := h.status
  rw [if_neg hlt, hok] at hres
  exact absurd hres (by decide)

/-- A memory whose bytes of the stream are all ones that PACK of a masked block wrote carries the stream (R103,
R104). -/
theorem carriesStream (h : PackLeaves n s t) (hn : n ≤ 64) (hmask : masked n s.v = true) {m : Memory}
    (hm : ∀ k b, k < 2 * n → m.read (s.cursor.toNat + k) = some b →
      s.cursor.toNat + k < t.cursor.toNat ∧ t.byte (s.cursor.toNat + k) = some b) :
    CarriesStream n s.v m s.cursor.toNat := by
  have hplan : (packPlan n s).1 = packScalars n s.v := by rw [packPlan, if_pos hmask]
  refine carriesStream_of_packScalars hn s.v m _ fun i c hc q b hq hb => ?_
  have hw : (scalarSeq n)[i]? = some c.width := by
    rw [← widthsOf_packScalars n s.v, widthsOf, List.getElem?_map, hc]
    rfl
  have hin := totalBytes_scalarSeq hn ▸ totalBytes_take_add_lt hw hq
  rw [Nat.add_assoc] at hb
  obtain ⟨hlt, hbyte⟩ := hm _ b hin hb
  rw [← Nat.add_assoc] at hlt hbyte
  exact Option.some.inj (hbyte.symm.trans (h.stored i c q (hplan ▸ hc) hq hlt))

theorem carriesStream_of_room (h : PackLeaves n s t) (hn : n ≤ 64) (hmask : masked n s.v = true)
    (hroom : s.cursor.toNat + 2 * n ≤ s.capacity.toNat) : CarriesStream n s.v t.store s.cursor.toNat := by
  obtain ⟨-, hcur⟩ := h.of_room hn hroom
  exact h.carriesStream hn hmask fun k b hk hb => ⟨by omega, hb⟩

theorem carriesStream_below (h : PackLeaves n s t) (hn : n ≤ 64) (hmask : masked n s.v = true) :
    CarriesStream n s.v (storeBelow t.store t.cursor.toNat) s.cursor.toNat := by
  refine h.carriesStream hn hmask fun k b _ hb => ?_
  have hread := Memory.read_filter t.store (fun a => decide (a < t.cursor.toNat)) (s.cursor.toNat + k)
  rw [storeBelow, hread] at hb
  by_cases hlt : s.cursor.toNat + k < t.cursor.toNat
  · rw [if_pos (decide_eq_true hlt)] at hb
    exact ⟨hlt, hb⟩
  · rw [if_neg (by simpa using hlt)] at hb
    cases hb

end PackLeaves

/-! ### The statements about PACK -/

/-- Settles O24: what PACK leaves, and the frame of every command. -/
theorem packWritesFromCursorToCursor : Obligations.PackWritesFromCursorToCursor := by
  intro n s hn hcur
  obtain ⟨t, hexec, h⟩ := exec_pack_leaves hn s
  obtain ⟨hv, hdata, hkept⟩ := exec_frame hexec
  refine ⟨t, hexec, h.of_room hn, fun hshort => ?_, h.outside, h.inside, hv (by simp), hdata ?_, hkept⟩
  · obtain ⟨hst, hle, -⟩ := h.of_short hn hcur hshort
    exact ⟨hst, hle⟩
  · rintro (_ | _ | _ | _) ⟨⟩

/-- Settles O25: with room, STORE itself is a memory whose bytes of the stream are the ones written. -/
theorem packWritesTheWireFormat : Obligations.PackWritesTheWireFormat := by
  intro n s hn hmask hroom
  obtain ⟨t, hexec, h⟩ := exec_pack_leaves hn s
  obtain ⟨hst, hcur⟩ := h.of_room hn hroom
  refine ⟨t, hexec, h.carriesStream_of_room hn hmask hroom, fun a hge hlt => ?_, hcur, hst, ?_⟩
  · exact h.inside a hge (hcur ▸ hlt)
  · rw [h.draws, packPlan, if_pos hmask]

/-- Settles O26: below the new CURSOR, STORE holds only bytes of the stream that were written. -/
theorem failedPackLeavesThePrefix : Obligations.FailedPackLeavesThePrefix := by
  intro n s hn hcur hshort
  obtain ⟨t, hexec, h⟩ := exec_pack_leaves hn s
  obtain ⟨hst, hle, j, hj, hplace, hfail⟩ := h.of_short hn hcur hshort
  exact ⟨t, j, hexec, hj, hplace, hle, hfail, hst, h.outside, h.inside, h.carriesStream_below hn⟩

theorem byteOf_or (x y : Word) (q : Nat) : byteOf (x ||| y) q = byteOf x q ||| byteOf y q :=
  BitVec.extractLsb'_or

/-- A byte placed at offset `k` is byte `k` of the scalar, and every other byte is 0. -/
theorem byteOf_byteAtOffset (x : Byte) {k : Nat} (hk : k < 8) (q : Nat) :
    byteOf (byteAtOffset x k) q = if q = k then x else 0 := by
  apply BitVec.eq_of_getLsbD_eq
  intro b hb
  rw [byteOf_getLsbD, byteAtOffset_getLsbD, decide_eq_true hb, Bool.true_and]
  rcases Nat.lt_trichotomy q k with hlt | rfl | hgt
  · have hlow : ¬8 * k ≤ 8 * q + b := by omega
    simp [hlow, hlt.ne]
  · have hin : 8 * q + b < 64 := by omega
    simp [hin]
  · have hhigh : 8 ≤ 8 * q + b - 8 * k := by omega
    simp [BitVec.getLsbD_of_ge x _ hhigh, hgt.ne']

/-- Byte `q` of a scalar of arbitrary bytes is the draw of its place (R107). -/
theorem byteOf_freeScalarValue (d : Nat) {k : Nat} (hk : k ≤ 8) (q : Nat) :
    byteOf (freeScalarValue d k) q = if q < k then Config.unmaskedByte (d + q) else 0 := by
  induction k with
  | zero => simp [freeScalarValue, byteOf]
  | succ k ih =>
    rw [freeScalarValue, byteOf_or, ih (by omega), byteOf_byteAtOffset _ (by omega)]
    rcases Nat.lt_trichotomy q k with hlt | rfl | hgt
    · simp [hlt, hlt.ne, Nat.lt_succ_of_lt hlt]
    · simp
    · simp [hgt.ne', Nat.not_lt.mpr hgt.le, Nat.not_lt.mpr (Nat.succ_le_of_lt hgt)]

/-- Scalar `i` of an unmasked PACK draws after the bytes before it (R107). -/
theorem freeScalars_get (ws : List Width) (d i : Nat) {w : Width} (hw : ws[i]? = some w) :
    (freeScalars ws d)[i]? = some ⟨w, freeScalarValue (d + totalBytes (ws.take i)) w.bytes⟩ := by
  induction ws generalizing d i with
  | nil => simp at hw
  | cons u ws ih =>
    cases i with
    | zero =>
      obtain rfl := Option.some.inj hw
      rfl
    | succ i =>
      rw [List.getElem?_cons_succ] at hw
      rw [freeScalars, List.getElem?_cons_succ, ih _ i hw, List.take_succ_cons, totalBytes_cons, Nat.add_assoc]

/-- Settles O27: each byte written lies in one scalar of the plan. -/
theorem unmaskedPackBytesAreFree : Obligations.UnmaskedPackBytesAreFree := by
  intro n s hn hmask hcur
  obtain ⟨t, hexec, h⟩ := exec_pack_leaves hn s
  have hplan : packPlan n.toNat s =
      (freeScalars (scalarSeq n.toNat) s.draws, s.draws + totalBytes (scalarSeq n.toNat)) := by
    rw [packPlan, if_neg (by simp [hmask])]
  refine ⟨t, hexec, ?_, h.of_room hn, fun hshort => ?_, fun k hk => ?_⟩
  · rw [h.draws, hplan, totalBytes_scalarSeq hn]
  · obtain ⟨hst, hle, j, -, hplace, hfail⟩ := h.of_short hn hcur hshort
    exact ⟨hst, hle, j, hplace, hfail⟩
  · have hfit : k < fittingBytes n.toNat s := by
      have hcursor := h.cursor
      omega
    obtain ⟨i, w, -, hw, hge, hlt⟩ := exists_scalar_of_byte_lt hfit
    obtain ⟨q, rfl⟩ := Nat.exists_eq_add_of_le hge
    have hq : q < w.bytes := by omega
    have hscalar := freeScalars_get _ s.draws i hw
    rw [← Nat.add_assoc] at hk ⊢
    rw [h.stored i _ q (by rw [hplan]; exact hscalar) hq hk, byteOf_freeScalarValue _ w.bytes_le,
      if_pos hq, Nat.add_assoc]

/-! ### What UNPACK leaves -/

/-- With fewer than `2n` bytes remaining UNPACK n moves CURSOR past the scalars that are there, takes draws and ends
OOR (R110). -/
theorem exec_unpack_of_short {n : BitVec 7} {s : State} (hn : n.toNat ≤ 64) (hshort : s.remaining < 2 * n.toNat) :
    ∃ c d, exec (.unpack n) s = .next (endOfCommand .outOfRange ((s.withDraws d).withCursor c)) ∧
      c.toNat = s.cursor.toNat + fittingBytes n.toNat s := by
  obtain ⟨c, d, hc, -, ⟨hfits, -⟩ | ⟨-, hunpack⟩⟩ := unpackCommand_effect hn s
  · omega
  · exact ⟨c, d, by rw [exec_unpack hn, hunpack], hc⟩

/-- Settles O28: a last scalar is the only one that a single byte can be missing from. -/
theorem oneByteShortFailsAtTheLastScalar : Obligations.OneByteShortFailsAtTheLastScalar := by
  refine fun n s hpos hn => ⟨fun hone => ?_, fun hshort => ?_⟩
  · obtain ⟨t, j, hexec, hj, hcur, -, hfail, hst, houtside, hinside, hcarries⟩ :=
      failedPackLeavesThePrefix n s hn (by omega) (by omega)
    have hlast : j + 1 = (scalarSeq n.toNat).length := by
      by_contra hne
      have hlt := totalBytes_take_lt (j := j + 1) (ws := scalarSeq n.toNat) (by omega)
      rw [totalBytes_scalarSeq hn] at hlt
      omega
    refine ⟨t, hexec, hst, ?_, hinside, houtside, hcarries⟩
    rw [hcur, List.dropLast_eq_take, ← hlast, Nat.add_sub_cancel]
  · obtain ⟨c, d, hexec, -⟩ := exec_unpack_of_short hn (remaining_lt_of_short (by omega) hshort)
    exact ⟨_, hexec, statusEnds_statusAfter _ _, rfl⟩

/-! ### The statements about UNPACK -/

/-- Settles O29: a written byte is seen as it was written. -/
theorem unpackReadsTheWireFormat : Obligations.UnpackReadsTheWireFormat := by
  intro n s hn hroom
  obtain ⟨c, v, hexec, hc, hcarries, hlt⟩ := exec_unpack_of_room hn hroom
  exact ⟨_, hexec, hcarries s.store fun k b _ hb => seenByte_of_written hb s.draws, hlt, hc,
    statusEnds_statusAfter _ _, rfl, rfl, rfl, rfl, rfl⟩

/-- Settles O31: of the ends of UNPACK only the one that assembles a block has RESULT OK. -/
theorem unpackedValuesAreBelowTwoToTheN : Obligations.UnpackedValuesAreBelowTwoToTheN := by
  intro n s t h hok
  by_cases hn : n.toNat ≤ 64
  · rw [exec_unpack hn] at h
    obtain rfl := Host.Outcome.next.inj h
    obtain ⟨c, d, -, -, ⟨-, xs, hunpack, -, hreads⟩ | ⟨-, hunpack⟩⟩ := unpackCommand_effect hn s
    · rw [hunpack]
      exact assemble_toNat_lt hn fun k w x hw hx => (hreads k w x hw hx).2
    · rw [hunpack, endOfCommand_status, statusResult_statusAfter] at hok
      exact absurd hok (by decide)
  · rw [exec_of_wide (.inr rfl) (Nat.not_le.mp hn)] at h
    obtain rfl := Host.Outcome.next.inj h
    rw [illegalCommand, endOfCommand_status, statusResult_statusAfter] at hok
    exact absurd hok (by decide)

/-- Settles O32: CURSOR stops at the first scalar that is not there. -/
theorem failedUnpackLeavesVUnchanged : Obligations.FailedUnpackLeavesVUnchanged := by
  intro n s hn hcur hshort
  have hlt := remaining_lt_of_short (by omega) hshort
  obtain ⟨c, d, hexec, hc⟩ := exec_unpack_of_short hn hlt
  obtain ⟨j, hj, hfit, hfail⟩ := exists_failing_scalar hn hlt
  refine ⟨_, j, hexec, hj, hc.trans (by rw [hfit]), hc.le.trans (cursor_add_fittingBytes_le _ hcur), hfail,
    statusEnds_statusAfter _ _, rfl, rfl, rfl, rfl, rfl, rfl⟩

/-- Settles O33: width 4 has no lane, so that value `i` is the field of the stream at bit `4i`. -/
theorem widthFourUsesTheFourBitRule : Obligations.WidthFourUsesTheFourBitRule := by
  have hlanes : laneSeq 4 = ([], 4) := by decide
  refine ⟨hlanes, by decide, fun s x hroom hbytes => ?_⟩
  obtain ⟨u, hexec, ⟨-, htiles⟩, hlt, hcur, ⟨hres, -⟩, -⟩ := unpackReadsTheWireFormat 4 s (by decide) hroom
  have hwidth : (4 : BitVec 7).toNat = 4 := rfl
  rw [hwidth, hlanes] at htiles
  rw [hwidth] at hlt
  refine ⟨u, hexec, hcur, hres, fun i => BitVec.eq_of_getLsbD_eq fun b hb => ?_⟩
  rw [BitVec.getLsbD_setWidth, BitVec.getLsbD_extractLsb', decide_eq_true hb, Bool.true_and]
  by_cases hb4 : b < 4
  · have hbit := htiles i b _ hb4 (hbytes ((i.val * 4 + b) / 8) (by omega))
    have hmod : (i.val * 4 + b) % 8 < 8 := Nat.mod_lt _ (by decide)
    rw [Nat.sub_self, Nat.zero_add, BitVec.getLsbD_extractLsb', decide_eq_true hmod, Nat.div_add_mod] at hbit
    rw [← hbit, decide_eq_true hb4, Nat.mul_comm]
  · rw [getLsbD_of_toNat_lt (hlt i) (Nat.not_lt.mp hb4), decide_eq_false hb4, Bool.false_and]

theorem assemble_zero : assemble 0 [] = Vector.replicate 16 0 := by decide

/-- Settles O34: width 0 has no scalar. -/
theorem widthZeroMovesNoByte : Obligations.WidthZeroMovesNoByte := by
  refine fun s => ⟨?_, ?_⟩
  · have hplan : (packPlan 0 s).1 = [] := List.map_eq_nil_iff.mp (widthsOf_packPlan 0 s)
    have hpack := packCommand_eq 0 s
    rw [hplan] at hpack
    refine ⟨_, (exec_pack (Nat.zero_le _) s).trans (congrArg _ hpack), ?_, rfl, rfl, rfl⟩
    exact statusEnds_statusAfter .ok s.status
  · have hunpack : unpackCommand 0 s = endOfCommand .ok (s.withV (Vector.replicate 16 0)) := by
      rw [← assemble_zero]
      rfl
    exact ⟨_, (exec_unpack (Nat.zero_le _) s).trans (congrArg _ hunpack), statusEnds_statusAfter .ok s.status, rfl⟩

/-! ### The round trip -/

theorem eq_zero_of_masked_zero {v : Block} (h : masked 0 v = true) : v = Vector.replicate 16 0 := by
  refine Vector.ext fun i hi => BitVec.eq_of_toNat_eq ?_
  have hlt := (masked_iff 0 v).mp h ⟨i, hi⟩
  simpa using hlt

/-- UNPACK n with the CURSOR and CAPACITY that PACK n found, and the stream's bytes as it left them, gives the block
back: the stream carries both blocks. Width 0 is apart, since it moves no byte wherever CURSOR is. -/
theorem exec_unpack_of_packed {n : BitVec 7} {s t u : State} (hn : n.toNat ≤ 64) (hmask : masked n.toNat s.v = true)
    (h : PackLeaves n.toNat s t) (hok : statusResult t.status = 0) (hcur : u.cursor = s.cursor)
    (hcap : u.capacity = s.capacity)
    (hbytes : ∀ a, s.cursor.toNat ≤ a → a < s.cursor.toNat + 2 * n.toNat → u.byte a = t.byte a) :
    ∃ r, exec (.unpack n) u = .next r ∧ r.v = s.v ∧ r.cursor.toNat = s.cursor.toNat + 2 * n.toNat ∧
      statusResult r.status = 0 := by
  rcases Nat.eq_zero_or_pos n.toNat with hzero | hpos
  · obtain rfl : n = 0 := BitVec.eq_of_toNat_eq hzero
    obtain ⟨-, r, hexec, ⟨hres, -⟩, hr⟩ := widthZeroMovesNoByte u
    refine ⟨r, hexec, ?_, ?_, hres⟩
    · rw [hr, eq_zero_of_masked_zero hmask]
      rfl
    · rw [hr]
      exact congrArg BitVec.toNat hcur
  · have hroom := (bytes_le_remaining_iff s (by omega)).mp (h.fits_of_result_ok hok)
    obtain ⟨c, v, hexec, hc, hcarries, hlt⟩ := exec_unpack_of_room (s := u) hn (by rwa [hcur, hcap])
    rw [hcur] at hc hcarries
    refine ⟨_, hexec, ?_, hc, statusResult_statusAfter _ _⟩
    have hwritten := h.inside
    rw [(h.of_room hn hroom).2] at hwritten
    have hunpacked : CarriesStream n.toNat v t.store s.cursor.toNat := hcarries t.store fun k b hk hb =>
      seenByte_of_written ((hbytes _ (by omega) (by omega)).trans hb) _
    exact CarriesStream_unique hn hwritten hunpacked (h.carriesStream_of_room hn hmask hroom) hlt
      ((masked_iff _ _).mp hmask)

/-- Settles O35: REWIND moves CURSOR only, so that with `B = 0` the state after it is one of those of the first part. -/
theorem unpackOfPackIsTheBlock : Obligations.UnpackOfPackIsTheBlock := by
  intro n s t hn hmask hpack hok
  obtain ⟨t', hexec, h⟩ := exec_pack_leaves hn s
  obtain rfl := Host.Outcome.next.inj (hexec.symm.trans hpack)
  refine ⟨fun u hcur hcap hbytes => exec_unpack_of_packed hn hmask h hok hcur hcap hbytes, fun hstart => ?_⟩
  obtain ⟨-, -, hcap, -, -⟩ := exec_frame hpack
  obtain ⟨r, hunpack, hv, hcur, hres⟩ := exec_unpack_of_packed (u := endOfCommand .ok (rewind t')) hn hmask h hok
    hstart.symm hcap fun _ _ _ => rfl
  exact ⟨_, r, rfl, hunpack, hv, by simpa [hstart] using hcur, hres⟩

end Sys2Proof.Machine
end

/-! ## STATUS: the illegal command word and CLRSTAT -/

section
namespace Sys2Proof.Machine

/-! ### The illegal command word -/

/-- Settles O7: a word R69 calls illegal does not decode, so its step is `illegalCommand`. -/
theorem illegalWordOnlyReports : Obligations.IllegalWordOnlyReports := by
  intro s c rest hillegal hin
  obtain ⟨e, hdec⟩ := decode_of_not_legalWord hillegal
  obtain ⟨hends, hframe⟩ := illegalCommand_only_reports (s.withInputs rest)
  refine ⟨_, step_of_issue_error hin hdec, hends, hframe, fun hzero => ?_⟩
  rw [illegalCommand_status, State.withInputs_status, hzero]
  decide

/-! ### CLRSTAT -/

@[simp] theorem stickyCap_clearSticky (st : Word) : stickyCap (clearSticky st) = false :=
  (clearSticky_getLsbD st 8).trans (Bool.and_false _)

@[simp] theorem stickyOor_clearSticky (st : Word) : stickyOor (clearSticky st) = false :=
  (clearSticky_getLsbD st 9).trans (Bool.and_false _)

@[simp] theorem stickyIll_clearSticky (st : Word) : stickyIll (clearSticky st) = false :=
  (clearSticky_getLsbD st 10).trans (Bool.and_false _)

/-- The clearing of the sticky bits touches no other bit. -/
theorem clearSticky_getLsbD_of_not_sticky (st : Word) {b : Nat} (hb : b < 8 ∨ 10 < b) :
    (clearSticky st).getLsbD b = st.getLsbD b := by
  have hsticky : ¬(8 ≤ b ∧ b ≤ 10) := by omega
  rw [clearSticky_getLsbD, decide_eq_false hsticky, Bool.not_false, Bool.and_true]

/-- STATUS has no bits but its fields and the reserved ones (R24). -/
theorem eq_zero_of_status_fields_zero {st : Word} (hreserved : statusReservedZero st = true)
    (hresult : statusResult st = 0) (hcap : stickyCap st = false) (hoor : stickyOor st = false)
    (hill : stickyIll st = false) : st = 0 := by
  rw [statusReservedZero_iff] at hreserved
  refine BitVec.eq_of_getLsbD_eq fun b _ => Eq.trans ?_ BitVec.getLsbD_zero.symm
  by_cases hlow : b < 2
  · have hbit := congrArg (·.getLsbD b) hresult
    simpa [statusResult, BitVec.getLsbD_extractLsb', hlow] using hbit
  · by_cases hfield : b < 8 ∨ 10 < b
    · exact hreserved b (by omega) hfield
    · obtain rfl | rfl | rfl : b = 8 ∨ b = 9 ∨ b = 10 := by omega
      · exact hcap
      · exact hoor
      · exact hill

/-- Settles O16: the command ends OK on a STATUS whose sticky bits are clear, so every field is 0. -/
theorem clrstatClearsStatus : Obligations.ClrstatClearsStatus := by
  refine ⟨decodeOfEncodeIsTheCommand .clrstat rfl, fun s => ?_⟩
  obtain ⟨hresult, hcap, hoor, hill, hother⟩ := statusEnds_statusAfter .ok (clearSticky s.status)
  simp only [stickyCap_clearSticky, stickyOor_clearSticky, stickyIll_clearSticky, reduceCtorEq, decide_false,
    Bool.or_false] at hcap hoor hill
  refine ⟨_, rfl, rfl, hresult, hcap, hoor, hill, fun b h2 hb => ?_, fun hreserved => ?_⟩
  · exact (hother b h2 hb).trans (clearSticky_getLsbD_of_not_sticky s.status hb)
  · have hkept := statusReservedZero_statusAfter (statusReservedZero_clearSticky hreserved) .ok
    exact eq_zero_of_status_fields_zero hkept hresult hcap hoor hill

end Sys2Proof.Machine
end

/-! ## Steps complete, and how commands end -/

section
namespace Sys2Proof.Machine

/-! ### A step completes -/

/-- Every command has a next state: none of its ends stops the block (R155). -/
theorem exec_completes (i : Instr) (s : State) : ∃ t, exec i s = .next t := by
  cases i with
  | pack | unpack | put8 | put16 | put32 | put64 | get8 | get16 | get32 | get64 | rewind | clrstat => exact ⟨_, rfl⟩

/-- A command word has its effect whether or not it is legal (R141). -/
theorem issueCommand_completes (c : Word) (s : State) : ∃ t, issueCommand c s = .next t := by
  unfold issueCommand
  split
  · exact exec_completes _ s
  · exact ⟨_, rfl⟩

theorem hostWrite_completes (idx : RegIndex) (x : Word) (s : State) : ∃ t, hostWrite idx x s = .next t := by
  unfold hostWrite
  split
  · exact issueCommand_completes x s
  all_goals exact ⟨_, rfl⟩

theorem performInput_completes (x : Input) (s : State) : ∃ t, performInput x s = .next t := by
  cases x with
  | access a =>
    cases a with
    | read idx => exact ⟨_, rfl⟩
    | write idx y => exact hostWrite_completes idx y s
  | reset | resetDuring | powerOn => exact ⟨_, rfl⟩

/-- No input touches the inputs behind it: not a command (R20), and no reset either (logs 4, 6, 14). -/
theorem performInput_inputs {x : Input} {s t : State} (h : performInput x s = .next t) : t.inputs = s.inputs := by
  rcases performInput_cases h with ⟨c, i, -, -, hexec⟩ | ⟨c, e, -, -, rfl⟩ | ⟨idx, -, rfl⟩ | ⟨idx, y, -, -, rfl⟩ |
    ⟨idx, y, i, -, -, rfl⟩ | ⟨idx, y, -, -, rfl⟩ | ⟨-, rfl⟩ | ⟨a, -, rfl⟩ | ⟨-, rfl⟩
  · obtain ⟨-, -, -, hinputs, -⟩ := exec_frame hexec
    exact hinputs
  all_goals rfl

/-- A step with an input pending completes and takes just that input from the queue. -/
theorem step_completes {s : State} {x : Input} {rest : List Input} (hin : s.inputs = x :: rest) :
    ∃ t, step s = .next t ∧ performInput x (s.withInputs rest) = .next t ∧ t.inputs = rest := by
  obtain ⟨t, h⟩ := performInput_completes x (s.withInputs rest)
  exact ⟨t, (step_of_inputs hin).trans h, h, performInput_inputs h⟩

/-- Settles O8: the step of the head of the queue, or, with none, the idle step. -/
theorem everyStepCompletesOneInput : Obligations.EveryStepCompletesOneInput := by
  intro s
  cases hin : s.inputs with
  | nil =>
    have hidle : step s = .next s := by simp only [step, performNext, hin]
    exact ⟨s, hidle, hin, nofun, fun _ => rfl⟩
  | cons x rest =>
    obtain ⟨t, hstep, hperform, hinputs⟩ := step_completes hin
    refine ⟨t, hstep, hinputs, ?_, nofun⟩
    rintro _ _ ⟨rfl, rfl⟩
    exact hperform

/-- Settles O38: the command's step leaves the read at the head of the queue, and the read finds the STATUS of the
state it is performed on. -/
theorem statusReadAfterCommandSeesItsOutcome : Obligations.StatusReadAfterCommandSeesItsOutcome := by
  intro s c rest hin
  obtain ⟨t, hstep, -, hinputs⟩ := step_completes hin
  exact ⟨t, _, hstep, step_of_inputs hinputs, rfl, fun i hdec => (step_of_issue_ok hin hdec).symm.trans hstep⟩

/-! ### The outcomes of a command -/

/-- No two outcomes have one code (R25). -/
theorem CommandOutcome.code_injective : Function.Injective CommandOutcome.code := by
  intro o o'
  cases o <;> cases o' <;> decide

/-- The commands that may end with an outcome (R150): ILL is left to those whose width no legal word carries. -/
def MayEnd (i : Instr) : CommandOutcome → Prop
  | .ok => True
  | .capacityExhausted => (∃ w, i = putInstr w) ∨ ∃ n, i = .pack n
  | .outOfRange => (∃ w, i = getInstr w) ∨ ∃ n, i = .unpack n
  | .illegalCommand => i.wellFormed = false

/-- `i`, begun in `s`, has ended in `t` with outcome `o`, one that it may end with: RESULT is the outcome's code, and
all of STATUS is as `end_of_command` says unless `i` is CLRSTAT, which also clears the sticky bits (R140, R154). -/
structure EndsWith (i : Instr) (s t : State) (o : CommandOutcome) : Prop where
  may : MayEnd i o
  result : statusResult t.status = o.code
  status : i ≠ .clrstat → StatusEnds o s.status t.status

theorem EndsWith.of_statusEnds {i : Instr} {s t : State} {o : CommandOutcome} (hmay : MayEnd i o)
    (h : StatusEnds o s.status t.status) : EndsWith i s t o :=
  ⟨hmay, h.1, fun _ => h⟩

/-- Each command, and each of its ends, has its outcome (R150, R154). -/
theorem exec_ends {i : Instr} {s t : State} (h : exec i s = .next t) : ∃ o, EndsWith i s t o := by
  rcases exec_cases h with ⟨w, rfl, rfl⟩ | ⟨w, rfl, rfl⟩ | ⟨n, rfl, hn, -⟩ | ⟨n, rfl, hn, rfl⟩ | ⟨-, rfl⟩ |
    ⟨rfl, rfl⟩ | ⟨n, hi, hn, rfl⟩
  · rcases putCommand_cases w s with ⟨-, hput⟩ | ⟨-, hput⟩
    · exact ⟨.capacityExhausted, .of_statusEnds (.inl ⟨w, rfl⟩) (hput ▸ statusEnds_statusAfter _ _)⟩
    · exact ⟨.ok, .of_statusEnds trivial (hput ▸ statusEnds_statusAfter _ _)⟩
  · rcases getCommand_cases w s with ⟨-, hget⟩ | ⟨-, hget⟩
    · exact ⟨.outOfRange, .of_statusEnds (.inl ⟨w, rfl⟩) (hget ▸ statusEnds_statusAfter _ _)⟩
    · exact ⟨.ok, .of_statusEnds trivial (hget ▸ statusEnds_statusAfter _ _)⟩
  · obtain ⟨t', hexec, hleaves⟩ := exec_pack_leaves hn s
    obtain rfl := Host.Outcome.next.inj (hexec.symm.trans h)
    refine ⟨_, .of_statusEnds ?_ hleaves.status⟩
    split
    · exact trivial
    · exact .inr ⟨n, rfl⟩
  · obtain ⟨c, d, -, -, ⟨-, xs, hunpack, -⟩ | ⟨-, hunpack⟩⟩ := unpackCommand_effect hn s
    · exact ⟨.ok, .of_statusEnds trivial (hunpack ▸ statusEnds_statusAfter _ _)⟩
    · exact ⟨.outOfRange, .of_statusEnds (.inr ⟨n, rfl⟩) (hunpack ▸ statusEnds_statusAfter _ _)⟩
  · exact ⟨.ok, .of_statusEnds trivial (statusEnds_statusAfter _ _)⟩
  · exact ⟨.ok, trivial, statusResult_statusAfter _ _, fun hno => absurd rfl hno⟩
  · refine ⟨.illegalCommand, .of_statusEnds ?_ (statusEnds_statusAfter _ _)⟩
    have hwide : legalBitWidth n = false := decide_eq_false (Nat.not_le.mpr hn)
    rcases hi with rfl | rfl
    · exact hwide
    · exact hwide

/-- Settles O18: RESULT tells the outcome, and the outcome the commands. -/
theorem outcomesBelongToTheirCommands : Obligations.OutcomesBelongToTheirCommands := by
  intro i s t hwf h
  obtain ⟨o, hends⟩ := exec_ends h
  have of_code : ∀ o', statusResult t.status = o'.code → MayEnd i o' := fun o' hcode =>
    CommandOutcome.code_injective (hends.result.symm.trans hcode) ▸ hends.may
  refine ⟨of_code .capacityExhausted, of_code .outOfRange, fun hill => ?_, ?_⟩
  · exact absurd (hwf.symm.trans (of_code .illegalCommand hill)) (by decide)
  · rintro (rfl | rfl)
    · exact Host.Outcome.next.inj h ▸ statusResult_statusAfter .ok _
    · exact Host.Outcome.next.inj h ▸ statusResult_statusAfter .ok _

/-- Settles O17: a legal command ends with one of its outcomes, an illegal word with ILL, and the accesses that issue
nothing write other registers or none. -/
theorem statusIsWrittenOnlyAtCommandEnd : Obligations.StatusIsWrittenOnlyAtCommandEnd := by
  intro s t rest h
  refine ⟨fun c hin hclr => ?_, fun a hin hno => ?_⟩
  · cases hdec : decode c with
    | ok i =>
      rw [step_of_issue_ok hin hdec] at h
      obtain ⟨o, hends⟩ := exec_ends h
      exact ⟨o, hends.status fun hi => hclr (hi ▸ hdec)⟩
    | error e =>
      rw [step_of_issue_error hin hdec] at h
      obtain rfl := Host.Outcome.next.inj h
      exact ⟨.illegalCommand, statusEnds_statusAfter _ _⟩
  · rw [step_of_inputs hin] at h
    rcases performInput_cases h with ⟨c, i, hx, -⟩ | ⟨c, e, hx, -⟩ | ⟨idx, -, rfl⟩ | ⟨idx, y, -, -, rfl⟩ |
      ⟨idx, y, i, -, -, rfl⟩ | ⟨idx, y, -, -, rfl⟩ | ⟨hx, -⟩ | ⟨b, hx, -⟩ | ⟨hx, -⟩
    · exact absurd (Input.access.inj hx) (hno c)
    · exact absurd (Input.access.inj hx) (hno c)
    · rfl
    · rfl
    · rfl
    · rfl
    · cases hx
    · cases hx
    · cases hx

/-! ### Where a failed command stops -/

theorem capacity_lt_of_remaining_lt {s : State} {k : Nat} (h : s.remaining < k) :
    s.capacity.toNat < s.cursor.toNat + k := by
  unfold State.remaining at h
  omega

/-- RESULT reports that a scalar failed: CAP or OOR (R150). -/
def ScalarFailed (t : State) : Prop := statusResult t.status = 1 ∨ statusResult t.status = 2

@[simp] theorem scalarFailed_endOfCommand (o : CommandOutcome) (s : State) :
    ScalarFailed (endOfCommand o s) ↔ o = .capacityExhausted ∨ o = .outOfRange := by
  rw [ScalarFailed, endOfCommand_status, statusResult_statusAfter]
  cases o <;> decide

/-- The width of the scalar that stopped a codec command short, and its place in the sequence: CURSOR stands behind the
scalars before it (R106, R110). -/
theorem exists_failing_width {n : Nat} {s : State} {c : Word} (hn : n ≤ 64) (hshort : s.remaining < 2 * n)
    (hc : c.toNat = s.cursor.toNat + fittingBytes n s) :
    ∃ (w : Width) (j : Nat), (scalarSeq n)[j]? = some w ∧
      c.toNat = s.cursor.toNat + totalBytes ((scalarSeq n).take j) ∧ s.capacity.toNat < c.toNat + w.bytes := by
  obtain ⟨j, hj, hfit, hfail⟩ := exists_failing_scalar hn hshort
  have hplace : c.toNat = s.cursor.toNat + totalBytes ((scalarSeq n).take j) := by rw [hc, hfit]
  refine ⟨(scalarSeq n)[j], j, List.getElem?_eq_getElem hj, hplace, ?_⟩
  rw [List.take_succ_eq_append_getElem hj, totalBytes_append, totalBytes_cons, totalBytes_nil] at hfail
  omega

/-- A command that reports a failed scalar stopped at it: PUT.W and GET.W where they began, PACK and UNPACK behind the
scalars before it (R150). -/
theorem exec_stops_at_failed_scalar {i : Instr} {s t : State} (h : exec i s = .next t) (hfail : ScalarFailed t) :
    ∃ w : Width, s.capacity.toNat < t.cursor.toNat + w.bytes ∧
      (((i = putInstr w ∨ i = getInstr w) ∧ t.cursor = s.cursor) ∨
        ∃ n j, (i = .pack n ∨ i = .unpack n) ∧ (scalarSeq n.toNat)[j]? = some w ∧
          t.cursor.toNat = s.cursor.toNat + totalBytes ((scalarSeq n.toNat).take j)) := by
  rcases exec_cases h with ⟨w, hi, rfl⟩ | ⟨w, hi, rfl⟩ | ⟨n, hi, hn, rfl⟩ | ⟨n, hi, hn, rfl⟩ | ⟨-, rfl⟩ |
    ⟨-, rfl⟩ | ⟨n, -, -, rfl⟩
  · rcases putCommand_cases w s with ⟨hlt, hput⟩ | ⟨-, hput⟩
    · rw [hput]
      exact ⟨w, capacity_lt_of_remaining_lt hlt, .inl ⟨.inl hi, rfl⟩⟩
    · simp [hput] at hfail
  · rcases getCommand_cases w s with ⟨hlt, hget⟩ | ⟨-, hget⟩
    · rw [hget]
      exact ⟨w, capacity_lt_of_remaining_lt hlt, .inl ⟨.inr hi, rfl⟩⟩
    · simp [hget] at hfail
  · obtain ⟨u, hpack, -, hc, -⟩ := packCommand_effect hn s
    rw [hpack] at hfail ⊢
    have hshort : s.remaining < 2 * n.toNat := by
      by_contra hfits
      simp [if_pos (Nat.not_lt.mp hfits)] at hfail
    obtain ⟨w, j, hw, hplace, hlt⟩ := exists_failing_width hn hshort hc
    exact ⟨w, hlt, .inr ⟨n, j, .inl hi, hw, hplace⟩⟩
  · obtain ⟨c, d, hc, -, ⟨-, xs, hunpack, -⟩ | ⟨hshort, hunpack⟩⟩ := unpackCommand_effect hn s
    · simp [hunpack] at hfail
    · obtain ⟨w, j, hw, hplace, hlt⟩ := exists_failing_width hn hshort hc
      rw [hunpack]
      exact ⟨w, hlt, .inr ⟨n, j, .inr hi, hw, hplace⟩⟩
  · simp at hfail
  · simp at hfail
  · simp [illegalCommand] at hfail

/-- Settles O19: the command stopped at the failed scalar, and it went on in the buffer up to there. -/
theorem cursorHoldsTheFailedAddress : Obligations.CursorHoldsTheFailedAddress := by
  intro i s t _ h hfail
  obtain ⟨w, hlt, hplace⟩ := exec_stops_at_failed_scalar h hfail
  obtain ⟨-, -, hcap, -, -⟩ := exec_frame h
  have hi : i ≠ .rewind := by
    rintro rfl
    obtain rfl : endOfCommand .ok (rewind s) = t := Host.Outcome.next.inj h
    exact absurd ((scalarFailed_endOfCommand _ _).mp hfail) (by decide)
  exact ⟨w, hcap ▸ hlt, (exec_advances h hi).cursor_le_capacity, hplace⟩

end Sys2Proof.Machine
end

/-! ## A reset during an access -/

section
namespace Sys2Proof.Machine

/-! ### The bytes of an interrupted command -/

/-- Outside the `k` bytes an interrupted command leaves STORE as it was (R171). -/
theorem interruptBytes_read_outside (m : Memory) (d : Nat) {a k x : Nat} (hx : x < a ∨ a + k ≤ x) :
    (interruptBytes m a d k).read x = m.read x := by
  induction k with
  | zero => rfl
  | succ k ih =>
    have hkept : (interruptBytes m a d k).read x = m.read x := ih (by omega)
    simp only [interruptBytes]
    split
    · exact hkept
    · exact (Memory.read_write_of_ne _ _ (by omega)).trans hkept

/-- An interrupted command leaves a byte as it was or writes some byte to it (R171). -/
theorem interruptBytes_read_old_or_written (m : Memory) (a d k x : Nat) :
    (interruptBytes m a d k).read x = m.read x ∨ ((interruptBytes m a d k).read x).isSome = true := by
  induction k with
  | zero => exact .inl rfl
  | succ k ih =>
    simp only [interruptBytes]
    split
    · exact ih
    · by_cases hx : x = a + k
      · subst hx
        exact .inr (by rw [Memory.read_write_self, Option.isSome_some])
      · rw [Memory.read_write_of_ne _ _ hx]
        exact ih

/-! ### How many bytes an access may write -/

theorem ofIndex_eq_cmd_iff : ∀ idx : RegIndex, HostReg.ofIndex idx = .cmd ↔ idx = 0 := by decide

/-- The bytes of a legal command word are those of its command (R64, R171). -/
theorem accessExtent_issue_ok {c : Word} {i : Instr} (hdec : decode c = .ok i) (s : State) :
    accessExtent (.write 0 c) s = writeExtent i s := by
  simp only [accessExtent, (ofIndex_eq_cmd_iff 0).mpr rfl, hdec]

/-- An illegal command word writes no byte (R141). -/
theorem accessExtent_issue_error {c : Word} {e : IllegalWord} (hdec : decode c = .error e) (s : State) :
    accessExtent (.write 0 c) s = 0 := by
  simp only [accessExtent, (ofIndex_eq_cmd_iff 0).mpr rfl, hdec]

/-- An access that issues no command writes no byte (R51, R62, R63). -/
theorem accessExtent_of_not_issue {a : Access} (ha : ∀ c, a ≠ .write 0 c) (s : State) : accessExtent a s = 0 := by
  cases a with
  | read idx => rfl
  | write idx x =>
    simp only [accessExtent]
    split
    · next hcmd _ => exact absurd ((ofIndex_eq_cmd_iff idx).mp hcmd ▸ rfl) (ha x)
    · rfl

/-- PUT.W that fits may write its scalar (R171). -/
theorem writeExtent_put_of_room {w : Width} {s : State} (hroom : s.cursor.toNat + w.bytes ≤ s.capacity.toNat) :
    writeExtent (putInstr w) s = w.bytes := by
  rw [writeExtent_putInstr, if_neg (Nat.not_lt.mpr (le_remaining_of_room hroom))]

/-- PUT.W that does not fit may write nothing (log 4). -/
theorem writeExtent_put_without_room {w : Width} {s : State} (hfull : s.capacity.toNat < s.cursor.toNat + w.bytes) :
    writeExtent (putInstr w) s = 0 := by
  rw [writeExtent_putInstr, if_pos (remaining_lt_of_short w.bytes_pos hfull)]

/-- Only PUT.W and PACK may write (R49, R171). -/
theorem writeExtent_of_not_put_pack {i : Instr} (hput : ∀ w, i ≠ putInstr w) (hpack : ∀ n, i ≠ .pack n) (s : State) :
    writeExtent i s = 0 := by
  cases i with
  | pack n => exact absurd rfl (hpack n)
  | put8 => exact absurd rfl (hput .w8)
  | put16 => exact absurd rfl (hput .w16)
  | put32 => exact absurd rfl (hput .w32)
  | put64 => exact absurd rfl (hput .w64)
  | unpack | get8 | get16 | get32 | get64 | rewind | clrstat => rfl

/-- The bytes of a command word that is no PUT.W and no PACK, legal or not (R49, R141). -/
theorem accessExtent_issue_of_not_put_pack {c : Word} (hput : ∀ w, decode c ≠ .ok (putInstr w))
    (hpack : ∀ n, decode c ≠ .ok (.pack n)) (s : State) : accessExtent (.write 0 c) s = 0 := by
  cases hdec : decode c with
  | error e => exact accessExtent_issue_error hdec s
  | ok i =>
    rw [accessExtent_issue_ok hdec]
    exact writeExtent_of_not_put_pack (fun w hi => hput w (hi ▸ hdec)) (fun n hi => hpack n (hi ▸ hdec)) s

/-- The pending inputs do not bear on how many bytes an access may write. -/
theorem accessExtent_withInputs (a : Access) (s : State) (q : List Input) :
    accessExtent a (s.withInputs q) = accessExtent a s := rfl

/-- STORE after a reset during an access, the inputs behind it set aside (R171). -/
theorem resetDuringAccess_byte (a : Access) (s : State) (q : List Input) (x : Nat) :
    (resetDuringAccess a (s.withInputs q)).byte x =
      (interruptBytes s.store s.cursor.toNat s.draws (accessExtent a s)).read x := by
  rw [← accessExtent_withInputs a s q]
  rfl

/-! ### The statement -/

/-- Settles O41: the reset's registers, the bytes of the interrupted command, and how many they are for each kind of
access. -/
theorem resetDuringAnAccess : Obligations.ResetDuringAnAccess := by
  refine ⟨fun s a rest hin => ?_, fun s c w hdec hroom => ?_, fun s c w hdec hfull => ?_, fun s c n hdec => ?_,
    fun s c hput hpack => accessExtent_issue_of_not_put_pack hput hpack s,
    fun s a ha => accessExtent_of_not_issue ha s⟩
  · refine ⟨_, step_of_inputs hin, replicate_zero_get, rfl, rfl, rfl, rfl, rfl, fun x hx => ?_, fun x _ _ => ?_⟩
    · exact (resetDuringAccess_byte a s rest x).trans (interruptBytes_read_outside s.store s.draws hx)
    · rw [resetDuringAccess_byte]
      exact interruptBytes_read_old_or_written s.store s.cursor.toNat s.draws (accessExtent a s) x
  · exact (accessExtent_issue_ok hdec s).trans (writeExtent_put_of_room hroom)
  · exact (accessExtent_issue_ok hdec s).trans (writeExtent_put_without_room hfull)
  · exact accessExtent_issue_ok hdec s

end Sys2Proof.Machine
end
